-- ==== Sys2Proof/Word.lean ====
section
/-! DEFINITION. The word types of the block (spec/00_scope.md R8, R9). -/

namespace Sys2Proof

/-- A register byte of the target, a transmitted or a received byte (R8, R57). -/
abbrev Byte := BitVec 8

/-- A decoded time value: 7 bits, holding 0..85 (R8). -/
abbrev Decoded := BitVec 7

end Sys2Proof
end

