-- ==== Sys2Proof/Config.lean ====
section
/-! DEFINITION. What an instance fixes (spec/00_scope.md R6), the inputs of one edge (spec/10_state.md R40) and the
values the spec leaves open. A constant without a body is one nothing can evaluate: what is proved holds whatever it is. -/

namespace Sys2Proof

/-- The inputs of the block, sampled at each rising edge (R40). -/
structure Inputs where
  /-- `rst`: synchronous reset, active high (R230). -/
  rst : Bool
  /-- `cmd_valid`: the host offers a command. -/
  cmdValid : Bool
  /-- `cmd_word`: the command (R80). -/
  cmdWord : BitVec 19
  /-- `p_done`: the bus driver completes the current primitive. -/
  pDone : Bool
  /-- `p_ack`: 1 = the target acknowledged (D8). -/
  pAck : Bool
  /-- `p_rdata`: the byte received. -/
  pRdata : Byte
  /-- `cx_fn`: the standalone codec function select (R88). -/
  cxFn : BitVec 3
  /-- `cx_in`: the standalone codec operand. -/
  cxIn : Byte
deriving DecidableEq, Repr, Inhabited

/-- Every input low. -/
def Inputs.low : Inputs where
  rst := false
  cmdValid := false
  cmdWord := 0
  pDone := false
  pAck := false
  pRdata := 0
  cxFn := 0
  cxIn := 0

/-- `ADDR_BYTE`: the chip bus address in byte form, an open parameter (R6, D15; log entry 3). -/
opaque Config.addrByte : Byte

/-- `REG_SECONDS`: the offset of the seconds register, an open parameter (R6, D16; log entry 3). -/
opaque Config.regSeconds : Byte

/-- The inputs the outside world draws at an edge for which State lists none (R181, D31; log entry 1). -/
opaque Config.drawInputs : Nat → Inputs

/-- What `p_wdata` shows of `tx[idx]` with `idx = 3`, an index no run reaches (R39; log entry 4). -/
opaque Config.txThree : Byte

/-- Whether the bus is left held by a reset in mid-transaction (R232, I11; log entry 9). -/
opaque Config.busAfterReset : Nat → Bool

/-- Whether a primitive that was not completed before a reset in mid-transaction still reaches the target (R232, I11; log
entry 9). -/
opaque Config.heardUncompleted : Nat → Bool

end Sys2Proof
end

