-- ==== Sys2Proof/Syntax.lean ====
section
/-! DEFINITION. The instructions of the block: one constructor per row of spec/opcode_table.json. An operand has exactly
the width of its field, and the bits a format ignores are an operand too, so that a term says every bit of its word. -/

namespace Sys2Proof

/-- The three groups of operations of R3: the host commands (CMD19), the codec functions (CODEC11) and the bus
primitives (PRIM11). -/
inductive Instr where
  /-- INIT (R147); bits 16:0 are ignored (R82). -/
  | init (ignored : BitVec 17)
  /-- WRITE (R148). -/
  | write (hour : BitVec 5) (minute : BitVec 6) (second : BitVec 6)
  /-- READ (R149); bits 16:0 are ignored (R82). -/
  | read (ignored : BitVec 17)
  /-- The reserved op 0b11 (R201); bits 16:0 are ignored (R82). -/
  | reservedCmd (ignored : BitVec 17)
  /-- DEC_SEC (R101). -/
  | decSec (b : Byte)
  /-- DEC_MIN (R102). -/
  | decMin (b : Byte)
  /-- DEC_HOUR (R103). -/
  | decHour (b : Byte)
  /-- The reserved codec code 0b011 (R108). -/
  | codecReserved011 (ignored : Byte)
  /-- ENC_SEC (R104); `cx_in[7:6]` is ignored (R87). -/
  | encSec (ignored : BitVec 2) (v : BitVec 6)
  /-- ENC_MIN (R105); `cx_in[7:6]` is ignored (R87). -/
  | encMin (ignored : BitVec 2) (v : BitVec 6)
  /-- ENC_HOUR (R106); `cx_in[7:5]` is ignored (R87). -/
  | encHour (ignored : BitVec 3) (v : BitVec 5)
  /-- The reserved codec code 0b111 (R108). -/
  | codecReserved111 (ignored : Byte)
  /-- START (R173). -/
  | start
  /-- RSTART (R175). -/
  | rstart
  /-- TX of a byte (R174). -/
  | tx (d : Byte)
  /-- ACKCHK (R176). -/
  | ackchk
  /-- RX (R177). -/
  | rx
  /-- MACK (R178). -/
  | mack
  /-- MNACK (R179). -/
  | mnack
  /-- STOP (R180). -/
  | stop
deriving DecidableEq, Repr

end Sys2Proof
end

