-- ==== Sys2Proof/WellFormed.lean ====
section
/-! DEFINITION. Which words are well formed. Every term of Instr is: its operands have their fields' widths. What can be
ill formed is a word offered at a port, so the checks are on words (log entry 7). -/

namespace Sys2Proof

/-- A word together with the port it is on: the formats are told apart by the port alone (R92). -/
inductive PortWord where
  /-- The command port (R80). -/
  | cmd19 (w : Nat)
  /-- The standalone codec port (R87). -/
  | codec11 (w : Nat)
  /-- The primitive request port (R84). -/
  | prim11 (w : Nat)
deriving DecidableEq, Repr

/-- The word fits its format's one fixed length (R92). -/
def PortWord.fits : PortWord → Bool
  | .cmd19 w => w < 2 ^ 19
  | .codec11 w => w < 2 ^ 11
  | .prim11 w => w < 2 ^ 11

/-- `p_wdata` carries a byte only for TX, and is 0x00 for every other primitive (R84). -/
def PortWord.wdataLegal : PortWord → Bool
  | .cmd19 _ => true
  | .codec11 _ => true
  | .prim11 w => w / 2 ^ 8 == 2 || w % 2 ^ 8 == 0

/-- A well-formed word: both checks hold. -/
def PortWord.wf (p : PortWord) : Bool := p.fits && p.wdataLegal

end Sys2Proof
end

