-- ==== Sys2Proof/Decode.lean ====
section
/-! DEFINITION. The decoder and the encoder of the three formats (spec/30_encoding.md R80 to R96). Decoding is total on
any number on any port, and refuses by name. -/

namespace Sys2Proof

/-- The field of `w` that begins at bit `lo` and is `width` bits wide (R9). -/
def field (lo width w : Nat) : BitVec width := BitVec.ofNat width (w / 2 ^ lo)

/-- A command word is decoded by `cmd_word[18:17]` alone (R80, R81, R92). -/
def decodeCmd (w : Nat) : Instr :=
  match w / 2 ^ 17 % 4 with
  | 0 => .init (field 0 17 w)
  | 1 => .write (field 12 5 w) (field 6 6 w) (field 0 6 w)
  | 2 => .read (field 0 17 w)
  | _ => .reservedCmd (field 0 17 w)

/-- A codec request is decoded by `cx_fn` alone (R87, R88, R92). -/
def decodeCodec (w : Nat) : Instr :=
  match w / 2 ^ 8 % 8 with
  | 0 => .decSec (field 0 8 w)
  | 1 => .decMin (field 0 8 w)
  | 2 => .decHour (field 0 8 w)
  | 3 => .codecReserved011 (field 0 8 w)
  | 4 => .encSec (field 6 2 w) (field 0 6 w)
  | 5 => .encMin (field 6 2 w) (field 0 6 w)
  | 6 => .encHour (field 5 3 w) (field 0 5 w)
  | _ => .codecReserved111 (field 0 8 w)

/-- A primitive request is decoded by `p_op` alone (R84, R85, R92). -/
def decodePrim (w : Nat) : Instr :=
  match w / 2 ^ 8 % 8 with
  | 0 => .start
  | 1 => .rstart
  | 2 => .tx (field 0 8 w)
  | 3 => .ackchk
  | 4 => .rx
  | 5 => .mack
  | 6 => .mnack
  | _ => .stop

/-- Why a number on a port is no word of its format. -/
inductive Reject where
  /-- A bit above the format's length is set (R92). -/
  | tooWide
  /-- A primitive other than TX with a byte in `p_wdata` (R84; log entry 7). -/
  | wdataNotZero
deriving DecidableEq, Repr

/-- The instruction a number on a port stands for, or the reason it stands for none. -/
def decode (p : PortWord) : Except Reject Instr :=
  if p.fits = false then .error .tooWide
  else if p.wdataLegal = false then .error .wdataNotZero
  else match p with
    | .cmd19 w => .ok (decodeCmd w)
    | .codec11 w => .ok (decodeCodec w)
    | .prim11 w => .ok (decodePrim w)

/-- A command word: `op` at bits 18:17 over the 17 bits below (R80). -/
def cmdWordOf (op low : Nat) : PortWord := .cmd19 (op * 2 ^ 17 + low)

/-- A codec word: `cx_fn` at bits 10:8 over `cx_in` (R87). -/
def codecWordOf (fn low : Nat) : PortWord := .codec11 (fn * 2 ^ 8 + low)

/-- A primitive word: `p_op` at bits 10:8 over `p_wdata` (R84). -/
def primWordOf (op low : Nat) : PortWord := .prim11 (op * 2 ^ 8 + low)

/-- The word of an instruction and the port it is on (R80, R81, R84, R85, R87, R88). -/
def encode : Instr → PortWord
  | .init u => cmdWordOf 0 u.toNat
  | .write h m s => cmdWordOf 1 (h.toNat * 2 ^ 12 + m.toNat * 2 ^ 6 + s.toNat)
  | .read u => cmdWordOf 2 u.toNat
  | .reservedCmd u => cmdWordOf 3 u.toNat
  | .decSec b => codecWordOf 0 b.toNat
  | .decMin b => codecWordOf 1 b.toNat
  | .decHour b => codecWordOf 2 b.toNat
  | .codecReserved011 u => codecWordOf 3 u.toNat
  | .encSec u v => codecWordOf 4 (u.toNat * 2 ^ 6 + v.toNat)
  | .encMin u v => codecWordOf 5 (u.toNat * 2 ^ 6 + v.toNat)
  | .encHour u v => codecWordOf 6 (u.toNat * 2 ^ 5 + v.toNat)
  | .codecReserved111 u => codecWordOf 7 u.toNat
  | .start => primWordOf 0 0
  | .rstart => primWordOf 1 0
  | .tx d => primWordOf 2 d.toNat
  | .ackchk => primWordOf 3 0
  | .rx => primWordOf 4 0
  | .mack => primWordOf 5 0
  | .mnack => primWordOf 6 0
  | .stop => primWordOf 7 0

/-- A line of a host command program (R93, R95). -/
inductive AsmLine where
  /-- `INIT` -/
  | init
  /-- `WRITE h, m, s` -/
  | write (h : BitVec 5) (m : BitVec 6) (s : BitVec 6)
  /-- `READ` -/
  | read
  /-- `.word 0xNNNNN` -/
  | word (w : BitVec 19)
  /-- The pseudo-instruction `SETTIME h, m, s` (R95). -/
  | setTime (h : BitVec 5) (m : BitVec 6) (s : BitVec 6)
deriving DecidableEq, Repr

/-- The commands a line stands for: the fields of INIT and READ are 0, a literal word is what it decodes to, and SETTIME
is INIT and then WRITE (R93, R95). -/
def AsmLine.commands : AsmLine → List Instr
  | .init => [.init 0]
  | .write h m s => [.write h m s]
  | .read => [.read 0]
  | .word w => [decodeCmd w.toNat]
  | .setTime h m s => [.init 0, .write h m s]

/-- The port a row of the opcode table is taken to be on, from its bits alone. The table's two 11-bit formats share every
word, and on the hardware the PORT tells them apart (R92): a 16-bit row whose low byte is zero is read as PRIM11, any
other as CODEC11 (DESIGN CHOICE, log entry 10). -/
def tablePort (nbits w : Nat) : PortWord :=
  if 16 < nbits then .cmd19 w else if w % 2 ^ 8 = 0 then .prim11 w else .codec11 w

/-- The instruction the decoder reads from a word numbered as the opcode table numbers it (log entry 10). -/
def decodeTableWord (nbits w : Nat) : Option Instr :=
  match decode (tablePort nbits w) with
  | .ok i => some i
  | .error _ => none

end Sys2Proof
end

