-- ==== Sys2Proof/Machine/State.lean ====
section
/-! DEFINITION. The state: the block's registers (spec/10_state.md R22 to R31), the environment component kept apart
from them (R21, R37; spec/20_memory.md R52, R66), the state after reset (R41), the faults and the refusals. -/

namespace Sys2Proof.Machine

/-- The 16 values of the 4-bit register `st` (R22), in the order of their encodings; the last five are the unused
encodings 0b1011 to 0b1111 (R39). -/
inductive SeqState where
  | idle | start | addr | ackw | regsel | dout | rstart | din | mack | mnack | stop
  | unusedB | unusedC | unusedD | unusedE | unusedF
deriving DecidableEq, Repr

/-- The 4 values of the 2-bit register `op_r`, in the order of their encodings (R23, R81). -/
inductive Op where
  | init | write | read | reserved
deriving DecidableEq, Repr

/-- The 4 values of the 2-bit register `sent`, in the order of their encodings: NONE, ADDR, REG, DATA (R25). -/
inductive Sent where
  | noByte | addr | reg | data
deriving DecidableEq, Repr

/-- The 4 values of the 2-bit register `status`, in the order of their encodings; the last is never written (R30, R203). -/
inductive Status where
  | ok | nackFail | badCmd | unused11
deriving DecidableEq, Repr

/-- Bus ownership (R52). -/
inductive Bus where
  | free | held
deriving DecidableEq, Repr

/-- The direction of the reference target's current phase (R66). -/
inductive Dir where
  | write | read
deriving DecidableEq, Repr

/-- The target's register file of 256 bytes as (offset, byte) pairs, offsets strictly rising and below 256 (R51, R66). Every
offset holds a byte: one that is not listed holds `Memory.blankByte` (log entry 8). -/
abbrev Memory := List Host.Cell

/-- The reference target `T` (R66, R67). It is part of the environment, never of the block. -/
structure Target where
  /-- `T.regs`. -/
  regs : Memory
  /-- `T.ptr`. -/
  ptr : Byte
  /-- `T.present`. -/
  present : Bool
  /-- `T.nack_at`: the 1-based position of the ACKCHK that returns NACK. -/
  nackAt : Option Nat
  /-- `T.dir`. -/
  dir : Dir
  /-- `T.first`: the next written byte is the register select. -/
  first : Bool
  /-- How many ACKCHKs of the current transaction have completed. -/
  ackCount : Nat
  /-- The next TX is an address byte. -/
  addressNext : Bool
  /-- What the next ACKCHK would return, `nack_at` apart; absent where R67 gives no answer. -/
  byteAcked : Option Bool
deriving DecidableEq, Repr

/-- The environment component: what the spec keeps out of the block (R21). `pins`, `upcoming`, `edge` and `attached` are
the model's own (log entries 1, 2 and 8). -/
structure Env where
  /-- The inputs as they stand at the coming edge (R40). -/
  pins : Inputs
  /-- The inputs of the edges after that one, the nearest first. -/
  upcoming : List Inputs
  /-- How many edges have passed: what the free draws are applied to. -/
  edge : Nat
  /-- Bus ownership (R52). -/
  bus : Bus
  /-- The reference target answers in the oracle's place. -/
  attached : Bool
  /-- The reference target. -/
  target : Target
deriving DecidableEq, Repr

/-- The state of the machine. -/
structure State where
  /-- `st`, the sequencer state (R22). -/
  st : SeqState
  /-- `op_r` (R23). -/
  opR : Op
  /-- `phase`: false = write phase, true = read phase (R24). -/
  phase : Bool
  /-- `sent` (R25). -/
  sent : Sent
  /-- `idx` (R26). -/
  idx : BitVec 2
  /-- `fail` (R27). -/
  fail : Bool
  /-- `tx[0]`: the seconds byte, or the initialize byte (R28). -/
  tx0 : Byte
  /-- `tx[1]`: the minutes byte (R28). -/
  tx1 : Byte
  /-- `tx[2]`: the hours byte (R28). -/
  tx2 : Byte
  /-- `rd[0]`, presented as `rd_sec` (R29). -/
  rd0 : Decoded
  /-- `rd[1]`, presented as `rd_min` (R29). -/
  rd1 : Decoded
  /-- `rd[2]`, presented as `rd_hour` (R29). -/
  rd2 : Decoded
  /-- `status` (R30). -/
  status : Status
  /-- `done`, presented as `rsp_done` (R31). -/
  done : Bool
  /-- The model's own: `cx_out` as it stood at the last edge (log entry 6). -/
  cxSampled : Byte
  /-- The environment component (R21). -/
  env : Env
deriving DecidableEq, Repr

/-- Why exec stops. No step raises either reason. -/
inductive Fault where
  /-- Raised by the meaning of a bus primitive in a state that requests ANOTHER primitive. The spec gives no effect: it
  makes not completing an unrequested primitive the bus driver's duty (R182). Safe: nothing is concluded of such a driver
  (log entry 5). -/
  | unrequestedPrimitive
deriving DecidableEq, Repr

/-- Why exec has no meaning for an instruction. -/
inductive Refusal where
  /-- Raised by an arm of exec that has no meaning yet, and by nothing else. Safe: nothing is concluded. -/
  | notModelled (mnemonic : String)
deriving DecidableEq, Repr

/-- What one edge does to the sequencer: exactly one of these (R130, R205). -/
inductive EdgeAction where
  /-- `rst = 1` (R230). -/
  | reset
  /-- Accept of a command, or the completion of the requested primitive. -/
  | run (i : Instr)
  /-- Unused-state recovery (R39, 93_implementation_defined.md I5). -/
  | recover
  /-- Hold in a state that waits (R140), or IDLE without a command (R141). -/
  | hold
deriving DecidableEq, Repr

/-- The reference target before any use: absent, and every register 0x00 (log entry 8). -/
def Target.blank : Target where
  regs := []
  ptr := 0
  present := false
  nackAt := none
  dir := .write
  first := false
  ackCount := 0
  addressNext := false
  byteAcked := none

/-- The environment beside a block that has just been reset: a free bus, every input low, nothing listed (log entries 2,
8 and 9). -/
def Env.quiet : Env where
  pins := Inputs.low
  upcoming := []
  edge := 0
  bus := .free
  attached := false
  target := Target.blank

/-- The machine right after reset: every register at its value of R41. -/
def State.reset : State where
  st := .idle
  opR := .init
  phase := false
  sent := .noByte
  idx := 0
  fail := false
  tx0 := 0x00
  tx1 := 0x00
  tx2 := 0x00
  rd0 := 0
  rd1 := 0
  rd2 := 0
  status := .ok
  done := false
  cxSampled := 0x00
  env := Env.quiet

end Sys2Proof.Machine
end

