-- ==== Sys2Proof/Machine/Operands.lean ====
section
/-! DEFINITION. Operands: the encodings of the registers of named values, the BCD codec (spec/40_codec.md), the address
byte (R91), and what each state requests of the bus driver (spec/42_bus_primitives.md R171, R174). -/

namespace Sys2Proof.Machine

/-- The encoding of `st` (R22). -/
def SeqState.code : SeqState → BitVec 4
  | .idle => 0b0000 | .start => 0b0001 | .addr => 0b0010 | .ackw => 0b0011
  | .regsel => 0b0100 | .dout => 0b0101 | .rstart => 0b0110 | .din => 0b0111
  | .mack => 0b1000 | .mnack => 0b1001 | .stop => 0b1010 | .unusedB => 0b1011
  | .unusedC => 0b1100 | .unusedD => 0b1101 | .unusedE => 0b1110 | .unusedF => 0b1111

/-- The encoding of `op_r` (R23, R81). -/
def Op.code : Op → BitVec 2
  | .init => 0b00 | .write => 0b01 | .read => 0b10 | .reserved => 0b11

/-- The encoding of `sent` (R25). -/
def Sent.code : Sent → BitVec 2
  | .noByte => 0b00 | .addr => 0b01 | .reg => 0b10 | .data => 0b11

/-- The encoding of `status` (R30). -/
def Status.code : Status → BitVec 2
  | .ok => 0b00 | .nackFail => 0b01 | .badCmd => 0b10 | .unused11 => 0b11

/-- DEC_SEC: `10 * b[7:6] + b[3:0]` (R101). -/
def decSec (b : Byte) : Decoded := BitVec.ofNat 7 (10 * (b.toNat / 2 ^ 6) + b.toNat % 2 ^ 4)

/-- DEC_MIN: `10 * b[7:6] + b[3:0]` (R102). -/
def decMin (b : Byte) : Decoded := BitVec.ofNat 7 (10 * (b.toNat / 2 ^ 6) + b.toNat % 2 ^ 4)

/-- DEC_HOUR: `10 * b[7:5] + b[3:0]` (R103). -/
def decHour (b : Byte) : Decoded := BitVec.ofNat 7 (10 * (b.toNat / 2 ^ 5) + b.toNat % 2 ^ 4)

/-- Two digits packed with the tens at bit `shift`, truncated to 8 bits and never masked (R112, R113, D9). -/
def packDigits (shift v : Nat) : Byte := BitVec.ofNat 8 ((v / 10) <<< shift ||| v % 10)

/-- ENC_SEC: `trunc8((tens << 6) OR ones)` (R104). -/
def encSec (v : BitVec 6) : Byte := packDigits 6 v.toNat

/-- ENC_MIN: `trunc8((tens << 6) OR ones)` (R105). -/
def encMin (v : BitVec 6) : Byte := packDigits 6 v.toNat

/-- ENC_HOUR: `trunc8((tens << 5) OR ones)` (R106). -/
def encHour (v : BitVec 5) : Byte := packDigits 5 v.toNat

/-- What `cx_out` shows for a codec request; the reserved codes show 0x00 (R108). -/
def codecOut : Instr → Byte
  | .decSec b => (decSec b).setWidth 8
  | .decMin b => (decMin b).setWidth 8
  | .decHour b => (decHour b).setWidth 8
  | .codecReserved011 _ => 0x00
  | .encSec _ v => encSec v
  | .encMin _ v => encMin v
  | .encHour _ v => encHour v
  | .codecReserved111 _ => 0x00
  | .init _ | .write _ _ _ | .read _ | .reservedCmd _ => 0x00
  | .start | .rstart | .tx _ | .ackchk | .rx | .mack | .mnack | .stop => 0x00

/-- The codec request on the port: `cx_fn` above `cx_in` (R87). -/
def Env.codecRequest (e : Env) : Instr := decodeCodec (e.pins.cxFn ++ e.pins.cxIn).toNat

/-- The address byte made of the parameter `a`: bit 0 is 0 in the write phase and 1 in the read phase (R91). -/
def addressByte (a : Byte) (readPhase : Bool) : Byte := if readPhase then a ||| 0x01 else a &&& 0xFE

/-- `tx[i]` (R28); no register has index 3 (log entry 4). -/
def State.txAt (s : State) (i : BitVec 2) : Byte :=
  match i.toNat with
  | 0 => s.tx0
  | 1 => s.tx1
  | 2 => s.tx2
  | _ => Config.txThree

/-- `WdataOf(st)` (R174). -/
def State.wdata (s : State) : Byte :=
  match s.st with
  | .addr => addressByte Config.addrByte s.phase
  | .regsel => Config.regSeconds
  | .dout => s.txAt s.idx
  | .idle | .start | .ackw | .rstart | .din | .mack | .mnack | .stop => 0x00
  | .unusedB | .unusedC | .unusedD | .unusedE | .unusedF => 0x00

/-- `PrimOf(st)` as the 3-bit `p_op`; 0b000 where nothing is requested (R171). -/
def SeqState.pOp : SeqState → BitVec 3
  | .start => 0b000
  | .rstart => 0b001
  | .addr | .regsel | .dout => 0b010
  | .ackw => 0b011
  | .din => 0b100
  | .mack => 0b101
  | .mnack => 0b110
  | .stop => 0b111
  | .idle | .unusedB | .unusedC | .unusedD | .unusedE | .unusedF => 0b000

/-- `p_req`: the ten non-IDLE states of R22 request a primitive (R32). -/
def SeqState.requests : SeqState → Bool
  | .start | .addr | .ackw | .regsel | .dout | .rstart | .din | .mack | .mnack | .stop => true
  | .idle | .unusedB | .unusedC | .unusedD | .unusedE | .unusedF => false

/-- The primitive a state requests, with the byte of a TX (R171, R174). -/
def State.request (s : State) : Option Instr :=
  match s.st with
  | .start => some .start
  | .rstart => some .rstart
  | .addr | .regsel | .dout => some (.tx s.wdata)
  | .ackw => some .ackchk
  | .din => some .rx
  | .mack => some .mack
  | .mnack => some .mnack
  | .stop => some .stop
  | .idle | .unusedB | .unusedC | .unusedD | .unusedE | .unusedF => none

end Sys2Proof.Machine
end

