-- ==== Sys2Proof/Machine/Flags.lean ====
section
/-! DEFINITION. The flags `done`, `fail` and `status` (spec/10_state.md R34): every place that computes one. -/

namespace Sys2Proof.Machine

/-- Every edge writes `done <- 0` unless it is a completion edge (R31). -/
def State.clearDone (s : State) : State := { s with done := false }

/-- The completion code STOP writes, chosen by `fail` (R146). -/
def completionStatus (fail : Bool) : Status := if fail then .nackFail else .ok

/-- A completion edge: the code is written and `done` set (R134, R146). -/
def State.completeWith (c : Status) (s : State) : State := { s with status := c, done := true }

end Sys2Proof.Machine
end

