-- ==== Sys2Proof/Machine/Memory.lean ====
section
/-! DEFINITION. Memory, the target's register file (spec/20_memory.md R51, R66): its canonical form, the read and the
write of one byte. -/

namespace Sys2Proof.Machine

/-- What an offset that is not listed holds (DESIGN CHOICE, log entry 8). -/
def Memory.blankByte : Byte := 0x00

/-- Offsets strictly rising from at least `lo` and below 256 (R51), and no entry that repeats `blankByte`. -/
def Memory.sortedFrom : Nat → Memory → Bool
  | _, [] => true
  | lo, c :: m => lo ≤ c.1 && c.1 < 256 && c.2 != Memory.blankByte && Memory.sortedFrom (c.1 + 1) m

/-- The canonical form: equal register files are equal lists. -/
def Memory.wf (m : Memory) : Bool := Memory.sortedFrom 0 m

/-- `TgtRead`: the byte at an offset (R12). -/
def Memory.readByte (a : Nat) : Memory → Byte
  | [] => Memory.blankByte
  | c :: m => if a = c.1 then c.2 else Memory.readByte a m

/-- What stands in the list for the byte `v` at offset `a`: nothing where it is `blankByte`. -/
def Memory.entry (a : Nat) (v : Byte) : Memory := if v = Memory.blankByte then [] else [(a, v)]

/-- `TgtWrite`: the byte `v` at offset `a`, in canonical form (R12). -/
def Memory.writeByte (a : Nat) (v : Byte) : Memory → Memory
  | [] => Memory.entry a v
  | c :: m =>
    if a < c.1 then Memory.entry a v ++ c :: m
    else if a = c.1 then Memory.entry a v ++ m
    else c :: Memory.writeByte a v m

end Sys2Proof.Machine
end

