-- ==== Sys2Proof/Machine/Target.lean ====
section
/-! DEFINITION. The environment: bus ownership (spec/20_memory.md R52) and the reference target T (R66 to R69), what each
completed primitive does to them, and what T answers. The block's own rules never depend on T (R66). -/

namespace Sys2Proof.Machine

/-- START: the ACKCHK count is 0 and the next TX is an address byte (R67). -/
def Target.hearStart (t : Target) : Target := { t with ackCount := 0, addressNext := true }

/-- RSTART: the next TX is an address byte; the count and the pointer are kept (R67). -/
def Target.hearRstart (t : Target) : Target := { t with addressNext := true }

/-- The byte is an address byte: it sets the direction, and is acknowledged if T is present and addressed (R67). -/
def Target.hearAddress (a : Byte) (t : Target) : Target :=
  { t with
    dir := if a.getLsbD 0 then .read else .write
    first := true
    addressNext := false
    byteAcked := some (t.present && a.toNat / 2 == Config.addrByte.toNat / 2) }

/-- The byte is the register select: it loads the pointer (R53, R67). -/
def Target.hearSelect (b : Byte) (t : Target) : Target :=
  { t with ptr := b, first := false, byteAcked := some true }

/-- The byte is a data byte: it is stored where the pointer points, and the pointer advances modulo 256 (R54, R67). -/
def Target.hearData (b : Byte) (t : Target) : Target :=
  { t with regs := Memory.writeByte t.ptr.toNat b t.regs, ptr := t.ptr + 1, byteAcked := some true }

/-- TX (R67). A byte after a read address is a case R67 does not name: nothing is stored, and no answer is given (log
entry 8). -/
def Target.hearTx (b : Byte) (t : Target) : Target :=
  if t.addressNext then t.hearAddress b
  else match t.dir with
    | .write => if t.first then t.hearSelect b else t.hearData b
    | .read => { t with byteAcked := none }

/-- The offset a TX would store to: that of a data byte, and no other (R67). -/
def Target.storesAt (t : Target) : Option Nat :=
  if t.addressNext then none
  else match t.dir with
    | .write => if t.first then none else some t.ptr.toNat
    | .read => none

/-- ACKCHK: one more has completed (R67). -/
def Target.hearAckchk (t : Target) : Target := { t with ackCount := t.ackCount + 1 }

/-- RX in the read direction: the pointer advances modulo 256 (R68). -/
def Target.hearRx (t : Target) : Target :=
  match t.dir with
  | .read => { t with ptr := t.ptr + 1 }
  | .write => t

/-- What T returns to the next ACKCHK: never ACK at the `nack_at`-th (R67). -/
def Target.ackAnswer (t : Target) : Option Bool :=
  match t.byteAcked with
  | some b => some (b && t.nackAt != some (t.ackCount + 1))
  | none => none

/-- What T returns to an RX: `TgtRead(T.ptr)` in the read direction (R68). -/
def Target.rxAnswer (t : Target) : Option Byte :=
  match t.dir with
  | .read => some (Memory.readByte t.ptr.toNat t.regs)
  | .write => none

/-- T hears what is on the bus only where it is attached. -/
def Env.heard (hear : Target → Target) (e : Env) : Env :=
  { e with target := if e.attached then hear e.target else e.target }

/-- A completed START: the bus is held (R52, R173). -/
def Env.hearStart (e : Env) : Env := { e.heard Target.hearStart with bus := .held }

/-- A completed RSTART: the bus stays held (R52, R175). -/
def Env.hearRstart (e : Env) : Env := { e.heard Target.hearRstart with bus := .held }

/-- A completed TX (R174). -/
def Env.hearTx (b : Byte) (e : Env) : Env := e.heard (Target.hearTx b)

/-- A completed ACKCHK (R176). -/
def Env.hearAckchk (e : Env) : Env := e.heard Target.hearAckchk

/-- A completed RX (R177). -/
def Env.hearRx (e : Env) : Env := e.heard Target.hearRx

/-- A completed STOP: the bus is free (R52, R180); T's registers and pointer are unchanged (R68). -/
def Env.hearStop (e : Env) : Env := { e with bus := .free }

/-- What a completed primitive does to the bus and to T, whatever the block makes of the edge (R170, R67, R68). MACK and
MNACK do nothing (R68), and what is no primitive is not on the bus. -/
def Env.hear (i : Instr) (e : Env) : Env :=
  match i with
  | .start => e.hearStart
  | .rstart => e.hearRstart
  | .tx d => e.hearTx d
  | .ackchk => e.hearAckchk
  | .rx => e.hearRx
  | .mack | .mnack => e
  | .stop => e.hearStop
  | .init _ | .write _ _ _ | .read _ | .reservedCmd _ => e
  | .decSec _ | .decMin _ | .decHour _ | .codecReserved011 _ => e
  | .encSec _ _ | .encMin _ _ | .encHour _ _ | .codecReserved111 _ => e

/-- The offset a TX stores to, where T is attached. -/
def Env.storesAt (e : Env) : Option Nat := if e.attached then e.target.storesAt else none

/-- A reset in mid-transaction leaves the bus as the driver leaves it (R232, I11; log entry 9). -/
def Env.afterReset (st : SeqState) (e : Env) : Env :=
  { e with bus := if st = .idle then e.bus else if Config.busAfterReset e.edge then .held else .free }

/-- The inputs of an edge at which the block is in state `st`: where T is attached it completes every request in its first
cycle and gives its answers (R69), and where it gives none the draw stays. -/
def Env.answered (e : Env) (st : SeqState) (p : Inputs) : Inputs :=
  { p with
    pDone := e.attached && st.requests || p.pDone
    pAck := if e.attached && st.requests then e.target.ackAnswer.getD p.pAck else p.pAck
    pRdata := if e.attached && st.requests then e.target.rxAnswer.getD p.pRdata else p.pRdata }

/-- The inputs the outside world supplies for the edge after this one: the next listed, or a free draw (log entry 1). -/
def Env.supplied (e : Env) : Inputs :=
  match e.upcoming with
  | [] => Config.drawInputs e.edge
  | p :: _ => p

/-- Time passes to the next edge, which finds the block in state `st`. -/
def Env.tick (st : SeqState) (e : Env) : Env :=
  { e with pins := e.answered st e.supplied, upcoming := e.upcoming.tail, edge := e.edge + 1 }

end Sys2Proof.Machine
end

