-- ==== Sys2Proof/Machine/Ops.lean ====
section
/-! DEFINITION. The shared operations of the sequencer: acceptance (spec/41_transactions.md R131), completion of a
primitive (R136 to R146), failure entry and return (spec/60_exceptions.md R206, R207), the edges without either (R39, R140,
R141) and reset (spec/70_reset_and_hazards.md R230). -/

namespace Sys2Proof.Machine

/-- An outcome of a meaning. -/
abbrev Result := Host.Outcome State Fault Refusal

/-- Go on from a next state; a stop stays a stop. -/
def Result.andThen (r : Result) (k : State → Result) : Result :=
  match r with
  | .next s => k s
  | .fault f => .fault f
  | .refused q => .refused q

/-- The context every acceptance writes (R131). -/
def State.acceptContext (op : Op) (s : State) : State :=
  { s with opR := op, phase := false, sent := .noByte, idx := 0, fail := false }

/-- A command is accepted in IDLE (R131). In any other state it is not, and waits with no effect (R154; log entry 12). -/
def accepting (op : Op) (effect : State → State) (s : State) : Result :=
  if s.st = .idle then .next (effect (s.clearDone.acceptContext op)) else .next s

/-- An edge at which an unused value of `st` or of `idx` recovers to IDLE (R39, I5; log entry 11). -/
def State.recoverEdge (s : State) : State := { s.clearDone with st := .idle }

/-- An edge that holds, or IDLE without a command: only `done <- 0` (R140, R141). -/
def State.holdEdge (s : State) : State := s.clearDone

/-- A primitive completes: the bus and the target hear it (R170), and `done <- 0`. -/
def State.completed (i : Instr) (s : State) : State := { s.clearDone with env := s.env.hear i }

/-- The primitive `i`, completed in the states `wanted` that request it (R170): the bus and the target hear it, and the
block takes its transition, or recovers where `idx` holds its unused value (I5; log entry 11). Where nothing is requested
the completion has no effect (R142), and the edge does what it does without it. Another request than this primitive is a
broken duty of the bus driver (R182; log entry 5). -/
def completing (i : Instr) (wanted : SeqState → Bool) (effect : State → State) (s : State) : Result :=
  if wanted s.st then
    if s.idx = 3 then .next { s.completed i with st := .idle } else .next (effect (s.completed i))
  else if s.st.requests then .fault .unrequestedPrimitive
  else if s.st = .idle then .next s.holdEdge
  else .next s.recoverEdge

/-- Failure entry, the one way a transaction fails: `fail` is set and STOP is next, nothing is saved, nothing rolled back
(R206). -/
def State.enterFailure (s : State) : State := { s with fail := true, st := .stop }

/-- Failure return and success alike: STOP completes the command with the code `fail` chooses (R146, R207). -/
def State.returnFromTransaction (s : State) : State :=
  { s.completeWith (completionStatus s.fail) with st := .idle }

/-- The successor of an acknowledged byte (R139). -/
def State.acknowledged (s : State) : State :=
  match s.sent with
  | .addr => if s.phase then { s with st := .din } else { s with st := .regsel }
  | .reg => if s.opR = .read then { s with st := .rstart } else { s with st := .dout }
  | .data =>
    if s.opR = .init ∨ s.idx = 2 then { s with st := .stop }
    else { s with idx := s.idx + 1, st := .dout }
  | .noByte => { s with st := .stop }

/-- ACKW samples `p_ack` (R139). -/
def State.checkAck (s : State) : State :=
  if s.env.pins.pAck then s.acknowledged else s.enterFailure

/-- The states that issue a TX (R171). -/
def SeqState.sends : SeqState → Bool
  | .addr | .regsel | .dout => true
  | .idle | .start | .ackw | .rstart | .din | .mack | .mnack | .stop => false
  | .unusedB | .unusedC | .unusedD | .unusedE | .unusedF => false

/-- What a state's TX records in `sent`; a state that sends nothing records nothing (R138). -/
def State.sentByte (s : State) : Sent :=
  match s.st with
  | .addr => .addr
  | .regsel => .reg
  | .dout => .data
  | .idle | .start | .ackw | .rstart | .din | .mack | .mnack | .stop => s.sent
  | .unusedB | .unusedC | .unusedD | .unusedE | .unusedF => s.sent

/-- DIN decodes the byte received into `rd[idx]` (R143). -/
def State.receive (b : Byte) (s : State) : State :=
  { s with
    rd0 := if s.idx = 0 then decSec b else s.rd0
    rd1 := if s.idx = 1 then decMin b else s.rd1
    rd2 := if s.idx = 2 then decHour b else s.rd2 }

/-- The codec port's answer is observed; nothing else changes (R100, R108). -/
def State.showCodec (i : Instr) (s : State) : State := { s with cxSampled := codecOut i }

/-- The environment after the primitive the block requests, where it requests one. -/
def State.hearRequest (s : State) : Env :=
  match s.request with
  | some i => s.env.hear i
  | none => s.env

/-- The environment after a reset edge. A primitive with `p_done = 1` has completed all the same (R170); one
without may or may not reach the target, and the bus is as the driver leaves it (R232, I11; log entry 9). -/
def State.resetEnv (s : State) : Env :=
  (if s.env.pins.pDone || Config.heardUncompleted s.env.edge then s.hearRequest else s.env).afterReset s.st

/-- An edge with `rst = 1`: every register at its reset value, and no other rule of the sequencer applies (R230, R232). -/
def State.resetEdge (s : State) : State :=
  { State.reset with cxSampled := s.cxSampled, env := s.resetEnv }

/-- Which of reset, Accept, completion, recovery and hold an edge is (R130; I5 for `idx = 3`, log entry 11). -/
def State.edgeAction (s : State) : EdgeAction :=
  if s.env.pins.rst then .reset
  else if s.st = .idle then
    if s.env.pins.cmdValid then .run (decodeCmd s.env.pins.cmdWord.toNat) else .hold
  else match s.request with
    | none => .recover
    | some i => if s.env.pins.pDone then .run i else if s.idx = 3 then .recover else .hold

/-- The edge is over: time passes to the next one. -/
def State.tick (s : State) : State := { s with env := s.env.tick s.st }

/-- The state in which the sequencer issues a primitive: for a TX, DOUT with the byte in `tx[0]`. -/
def State.issuing (i : Instr) (s : State) : State :=
  match i with
  | .start => { s with st := .start }
  | .rstart => { s with st := .rstart }
  | .tx d => { s with st := .dout, idx := 0, tx0 := d }
  | .ackchk => { s with st := .ackw }
  | .rx => { s with st := .din }
  | .mack => { s with st := .mack }
  | .mnack => { s with st := .mnack }
  | .stop => { s with st := .stop }
  | .init _ | .write _ _ _ | .read _ | .reservedCmd _ => s
  | .decSec _ | .decMin _ | .decHour _ | .codecReserved011 _ => s
  | .encSec _ _ | .encMin _ _ | .encHour _ _ | .codecReserved111 _ => s

/-- The inputs without reset, command and completion: an edge at which only the codec port is asked. -/
def codecPins (w : Nat) (p : Inputs) : Inputs :=
  { p with rst := false, cmdValid := false, pDone := false, cxFn := field 8 3 w, cxIn := field 0 8 w }

/-- The state whose coming edge runs the word on its port: a command on the command port of an idle block, a codec request
on the codec port, a primitive as the completed request of the state that issues it (log entry 13). -/
def State.offering (p : PortWord) (s : State) : State :=
  match p with
  | .cmd19 w =>
    { s with
      st := .idle
      env := { s.env with pins :=
        { s.env.pins with rst := false, cmdValid := true, cmdWord := BitVec.ofNat 19 w } } }
  | .codec11 w => { s with env := { s.env with pins := codecPins w s.env.pins } }
  | .prim11 w =>
    { s.issuing (decodePrim w) with
      env := { s.env with pins := { s.env.pins with rst := false, pDone := true } } }

end Sys2Proof.Machine
end

