-- ==== Sys2Proof/Machine/Codec.lean ====
section
/-! DEFINITION. The meanings of the codec functions on the standalone port (spec/40_codec.md R100 to R108). -/

namespace Sys2Proof.Machine

/-- DEC_SEC (R101). -/
def execDecSec (b : Byte) (s : State) : Result := .next (s.showCodec (.decSec b))

/-- DEC_MIN (R102). -/
def execDecMin (b : Byte) (s : State) : Result := .next (s.showCodec (.decMin b))

/-- DEC_HOUR (R103). -/
def execDecHour (b : Byte) (s : State) : Result := .next (s.showCodec (.decHour b))

/-- The reserved code 0b011: `cx_out = 0x00` (R108). -/
def execCodecReserved011 (ignored : Byte) (s : State) : Result := .next (s.showCodec (.codecReserved011 ignored))

/-- ENC_SEC (R104). -/
def execEncSec (ignored : BitVec 2) (v : BitVec 6) (s : State) : Result := .next (s.showCodec (.encSec ignored v))

/-- ENC_MIN (R105). -/
def execEncMin (ignored : BitVec 2) (v : BitVec 6) (s : State) : Result := .next (s.showCodec (.encMin ignored v))

/-- ENC_HOUR (R106). -/
def execEncHour (ignored : BitVec 3) (v : BitVec 5) (s : State) : Result := .next (s.showCodec (.encHour ignored v))

/-- The reserved code 0b111: `cx_out = 0x00` (R108). -/
def execCodecReserved111 (ignored : Byte) (s : State) : Result := .next (s.showCodec (.codecReserved111 ignored))

end Sys2Proof.Machine
end

