-- ==== Sys2Proof/Machine/Commands.lean ====
section
/-! DEFINITION. The meanings of the host commands: what acceptance of each does (spec/41_transactions.md R131 to R135). The
transaction that follows is run by the primitives' own edges. -/

namespace Sys2Proof.Machine

/-- INIT: `tx[0] <- 0x00; st <- START` (R132, R147). -/
def execInit (_ignored : BitVec 17) (s : State) : Result :=
  accepting .init (fun a => { a with tx0 := 0x00, st := .start }) s

/-- WRITE: the three bytes are encoded at acceptance (R133, R148). -/
def execWrite (hour : BitVec 5) (minute : BitVec 6) (second : BitVec 6) (s : State) : Result :=
  accepting .write
    (fun a => { a with tx0 := encSec second, tx1 := encMin minute, tx2 := encHour hour, st := .start }) s

/-- READ: `st <- START` (R135, R149). -/
def execRead (_ignored : BitVec 17) (s : State) : Result :=
  accepting .read (fun a => { a with st := .start }) s

/-- The reserved op: BAD_CMD at the acceptance edge, with no primitive issued (R134, R201). -/
def execReservedCmd (_ignored : BitVec 17) (s : State) : Result :=
  accepting .reserved (fun a => a.completeWith .badCmd) s

end Sys2Proof.Machine
end

