-- ==== Sys2Proof/Machine/Primitives.lean ====
section
/-! DEFINITION. The meanings of the bus primitives: the completing edge's transition (spec/41_transactions.md R136 to R146)
and what the bus and the reference target do (spec/42_bus_primitives.md R173 to R180, spec/20_memory.md R52, R67, R68). -/

namespace Sys2Proof.Machine

/-- START: `st <- ADDR` (R136, R173). -/
def execStart (s : State) : Result :=
  completing .start (· == .start) (fun a => { a with st := .addr }) s

/-- RSTART: `phase <- 1; st <- ADDR` (R137, R175). -/
def execRstart (s : State) : Result :=
  completing .rstart (· == .rstart) (fun a => { a with phase := true, st := .addr }) s

/-- TX: what was sent is recorded, and ACKW is next (R138, R174). -/
def execTx (d : Byte) (s : State) : Result :=
  completing (.tx d) SeqState.sends (fun a => { a with sent := a.sentByte, st := .ackw }) s

/-- ACKCHK: `p_ack` decides (R139, R176). -/
def execAckchk (s : State) : Result :=
  completing .ackchk (· == .ackw) State.checkAck s

/-- RX: the byte is decoded as it arrives; MNACK follows the third, MACK any other (R143, R177). -/
def execRx (s : State) : Result :=
  completing .rx (· == .din)
    (fun a => { a.receive a.env.pins.pRdata with st := if a.idx = 2 then .mnack else .mack }) s

/-- MACK: `idx <- idx + 1; st <- DIN` (R144, R178). -/
def execMack (s : State) : Result :=
  completing .mack (· == .mack) (fun a => { a with idx := a.idx + 1, st := .din }) s

/-- MNACK: `st <- STOP` (R145, R179). -/
def execMnack (s : State) : Result :=
  completing .mnack (· == .mnack) (fun a => { a with st := .stop }) s

/-- STOP completes the command and releases the bus (R146, R180). -/
def execStop (s : State) : Result :=
  completing .stop (· == .stop) State.returnFromTransaction s

end Sys2Proof.Machine
end

