-- ==== Sys2Proof/Machine/Dispatch.lean ====
section
/-! DEFINITION. exec: one arm per instruction. -/

namespace Sys2Proof.Machine

def exec (i : Instr) (s : State) : Host.Outcome State Fault Refusal :=
  match i with
  | .init u => Sys2Proof.Machine.execInit u s
  | .write h m v => Sys2Proof.Machine.execWrite h m v s
  | .read u => Sys2Proof.Machine.execRead u s
  | .reservedCmd u => Sys2Proof.Machine.execReservedCmd u s
  | .decSec b => Sys2Proof.Machine.execDecSec b s
  | .decMin b => Sys2Proof.Machine.execDecMin b s
  | .decHour b => Sys2Proof.Machine.execDecHour b s
  | .codecReserved011 u => Sys2Proof.Machine.execCodecReserved011 u s
  | .encSec u v => Sys2Proof.Machine.execEncSec u v s
  | .encMin u v => Sys2Proof.Machine.execEncMin u v s
  | .encHour u v => Sys2Proof.Machine.execEncHour u v s
  | .codecReserved111 u => Sys2Proof.Machine.execCodecReserved111 u s
  | .start => Sys2Proof.Machine.execStart s
  | .rstart => Sys2Proof.Machine.execRstart s
  | .tx d => Sys2Proof.Machine.execTx d s
  | .ackchk => Sys2Proof.Machine.execAckchk s
  | .rx => Sys2Proof.Machine.execRx s
  | .mack => Sys2Proof.Machine.execMack s
  | .mnack => Sys2Proof.Machine.execMnack s
  | .stop => Sys2Proof.Machine.execStop s

end Sys2Proof.Machine
end

