-- ==== Sys2Proof/Machine/Step.lean ====
section
/-! DEFINITION. One step is one rising edge of `clk` (spec/10_state.md R20, spec/41_transactions.md R130). -/

namespace Sys2Proof.Machine

/-- One edge. The codec port is answered, as in every cycle (R108); the sequencer does the one thing this edge is (R130);
time passes to the next edge. -/
def step (s : State) : Host.Outcome State Fault Refusal :=
  Result.andThen (exec s.env.codecRequest s) fun a =>
    match s.edgeAction with
    | .reset => .next a.resetEdge.tick
    | .run i => Result.andThen (exec i a) fun b => .next b.tick
    | .recover => .next a.recoverEdge.tick
    | .hold => .next a.holdEdge.tick

/-- `s` with the word of a table row on the port `tablePort` gives it, so that the next step runs it (log entries 10 and
13). -/
def State.withFetchWord (s : State) (nbits w : Nat) : State := s.offering (tablePort nbits w)

end Sys2Proof.Machine
end

