-- ==== Sys2Proof/Machine/Observe.lean ====
section
/-! DEFINITION. The outputs of the block (spec/10_state.md R32) and the observation claims speak of
(spec/41_transactions.md R152): the primitive trace of a run. -/

namespace Sys2Proof.Machine

/-- The outputs in one cycle (R32). -/
structure Outputs where
  cmdReady : Bool
  rspDone : Bool
  rspStatus : BitVec 2
  rdSec : Decoded
  rdMin : Decoded
  rdHour : Decoded
  pReq : Bool
  pOp : BitVec 3
  pWdata : Byte
  cxOut : Byte
deriving DecidableEq, Repr

/-- The outputs are functions of the registers and the parameters, but for `cx_out`, which depends on the codec inputs of
the cycle alone (R32). -/
def State.outputs (s : State) : Outputs where
  cmdReady := s.st == .idle
  rspDone := s.done
  rspStatus := s.status.code
  rdSec := s.rd0
  rdMin := s.rd1
  rdHour := s.rd2
  pReq := s.st.requests
  pOp := s.st.pOp
  pWdata := s.wdata
  cxOut := codecOut s.env.codecRequest

/-- One entry of a primitive trace: the request, and the response where it is read (R142, R152). -/
structure TraceEntry where
  op : BitVec 3
  wdata : Byte
  ack : Option Bool
  rdata : Option Byte
deriving DecidableEq, Repr

/-- The PRIM11 word of an entry's request (R84). -/
def TraceEntry.word (t : TraceEntry) : PortWord := primWordOf t.op.toNat t.wdata.toNat

/-- The coming edge completes a primitive: `p_req = 1` and `p_done = 1`, at a reset edge too (R170). -/
def State.completesPrimitive (s : State) : Bool := s.st.requests && s.env.pins.pDone

/-- The coming edge takes the transition of state `q` (R130): the requested primitive completes, without reset, and `idx`
does not hold its unused value. -/
def State.advancesFrom (q : SeqState) (s : State) : Bool :=
  !s.env.pins.rst && s.st == q && s.completesPrimitive && s.idx != 3

/-- The trace entry of the coming edge, where it completes a primitive (R152), with the response where a transition reads it
(R142; log entry 15). -/
def State.traceEntry (s : State) : List TraceEntry :=
  if s.completesPrimitive then
    [{ op := s.st.pOp
       wdata := s.wdata
       ack := if s.advancesFrom .ackw then some s.env.pins.pAck else none
       rdata := if s.advancesFrom .din then some s.env.pins.pRdata else none }]
  else []

/-- The primitive trace of the next `n` edges (R152). -/
def primTrace : Nat → State → List TraceEntry
  | 0, _ => []
  | n + 1, s =>
    match step s with
    | .next t => s.traceEntry ++ primTrace n t
    | .fault _ => s.traceEntry
    | .refused _ => s.traceEntry

end Sys2Proof.Machine
end

