-- ==== Sys2Proof/Machine/Transaction.lean ====
section
/-! DEFINITION. The transaction-level reading of the host commands (spec/41_transactions.md R147 to R151): the sequence of
primitives a command issues, written from those rules and apart from the step, so that claims can say the edges issue
exactly that sequence. The step uses nothing of this file. -/

namespace Sys2Proof.Machine

/-- `A_W` (R91). -/
def addressW : Byte := addressByte Config.addrByte false

/-- `A_R` (R91). -/
def addressR : Byte := addressByte Config.addrByte true

/-- `SendChecked`: one TX and its ACKCHK (R147). -/
def sendChecked (b : Byte) : List Instr := [.tx b, .ackchk]

/-- The sequence of a command with ACK at every check (R147, R148, R149); what is no command issues nothing. -/
def fullSequence : Instr → List Instr
  | .init _ =>
    [.start] ++ sendChecked addressW ++ sendChecked Config.regSeconds ++ sendChecked 0x00 ++ [.stop]
  | .write h m v =>
    [.start] ++ sendChecked addressW ++ sendChecked Config.regSeconds
      ++ sendChecked (encSec v) ++ sendChecked (encMin m) ++ sendChecked (encHour h) ++ [.stop]
  | .read _ =>
    [.start] ++ sendChecked addressW ++ sendChecked Config.regSeconds
      ++ [.rstart] ++ sendChecked addressR ++ [.rx, .mack, .rx, .mack, .rx, .mnack, .stop]
  | .reservedCmd _ => []
  | .decSec _ | .decMin _ | .decHour _ | .codecReserved011 _ => []
  | .encSec _ _ | .encMin _ _ | .encHour _ _ | .codecReserved111 _ => []
  | .start | .rstart | .tx _ | .ackchk | .rx | .mack | .mnack | .stop => []

/-- A sequence with NACK at its `j`-th ACKCHK: the prefix up to and including it, and then STOP (R151). With `j = 0` no
check is a NACK. -/
def nackedAt : Nat → List Instr → List Instr
  | _, [] => []
  | j, p :: ps =>
    if p = .ackchk then
      if j = 1 then [.ackchk, .stop] else .ackchk :: nackedAt (j - 1) ps
    else p :: nackedAt j ps

/-- The edges complete each primitive of a sequence in its first cycle, without reset, and answer ACK to every check but
the `j`-th (R151, R251). -/
def answeredWithNackAt : Nat → List Instr → List Inputs → Bool
  | _, [], _ => true
  | _, _ :: _, [] => false
  | j, p :: ps, i :: is =>
    !i.rst && i.pDone
      && (if p = .ackchk then i.pAck == (j != 1) && answeredWithNackAt (j - 1) ps is
          else answeredWithNackAt j ps is)

/-- How many ACKCHKs a command's sequence has (R151). -/
def checkCount (i : Instr) : Nat := (fullSequence i).count .ackchk

/-- What is left of a READ from the RX of byte `i` on (R149). -/
def readFrom (i : Nat) : List Instr :=
  match i with
  | 0 => [.rx, .mack, .rx, .mack, .rx, .mnack, .stop]
  | 1 => [.rx, .mack, .rx, .mnack, .stop]
  | 2 => [.rx, .mnack, .stop]
  | _ => []

/-- What is left of an INIT or a WRITE from the TX of data byte `i` on (R147, R148). -/
def State.dataFrom (i : Nat) (s : State) : List Instr :=
  if s.opR = .init then sendChecked s.tx0 ++ [.stop]
  else match i with
    | 0 => sendChecked s.tx0 ++ sendChecked s.tx1 ++ sendChecked s.tx2 ++ [.stop]
    | 1 => sendChecked s.tx1 ++ sendChecked s.tx2 ++ [.stop]
    | 2 => sendChecked s.tx2 ++ [.stop]
    | _ => []

/-- What is left after the register select is acknowledged: READ goes on to its read phase (R148, R149). -/
def State.afterSelect (s : State) : List Instr :=
  if s.opR = .read then [.rstart] ++ sendChecked addressR ++ readFrom 0 else s.dataFrom 0

/-- What is left after the last byte sent is acknowledged. -/
def State.afterAck (s : State) : List Instr :=
  match s.sent with
  | .addr => if s.phase then readFrom 0 else sendChecked Config.regSeconds ++ s.afterSelect
  | .reg => s.afterSelect
  | .data => if s.opR = .init ∨ s.idx = 2 then [.stop] else s.dataFrom (s.idx.toNat + 1)
  | .noByte => [.stop]

/-- The primitives a transaction has still to issue if every check is an ACK, read from the registers. -/
def State.remaining (s : State) : List Instr :=
  match s.st with
  | .start => [.start] ++ sendChecked addressW ++ sendChecked Config.regSeconds ++ s.afterSelect
  | .addr =>
    if s.phase then sendChecked addressR ++ readFrom 0
    else sendChecked addressW ++ sendChecked Config.regSeconds ++ s.afterSelect
  | .regsel => sendChecked Config.regSeconds ++ s.afterSelect
  | .dout => s.dataFrom s.idx.toNat
  | .ackw => [.ackchk] ++ s.afterAck
  | .rstart => [.rstart] ++ sendChecked addressR ++ readFrom 0
  | .din => readFrom s.idx.toNat
  | .mack => [.mack] ++ readFrom (s.idx.toNat + 1)
  | .mnack => [.mnack, .stop]
  | .stop => [.stop]
  | .idle | .unusedB | .unusedC | .unusedD | .unusedE | .unusedF => []

/-- The `BusPrim` reading of a transaction (R12, R147): the primitives issued when `plan` is left and the edges supply
`pins`. A request waits for `p_done`, and a NACK leaves only STOP. -/
def played : List Instr → List Inputs → List Instr
  | [], _ => []
  | _ :: _, [] => []
  | p :: ps, i :: is =>
    if i.pDone then p :: played (if p = .ackchk ∧ i.pAck = false then [.stop] else ps) is
    else played (p :: ps) is

end Sys2Proof.Machine
end

