-- ==== Sys2Proof/Safety.lean ====
section
/-! DEFINITION. The terms claims use: the invariant of the block's registers, completion edges, when a read result is
valid, and the host's duties (spec/41_transactions.md R153, spec/70_reset_and_hazards.md R240 to R247). -/

namespace Sys2Proof.Machine

/-- The context registers agree with the place in the transaction, for each value of `st` (R36, R136 to R146). -/
def State.contextOk (s : State) : Bool :=
  match s.st with
  | .idle => true
  | .start => s.opR != .reserved && !s.phase && s.sent == .noByte && s.idx == 0 && !s.fail
  | .addr =>
    s.opR != .reserved && s.idx == 0 && !s.fail
      && (if s.phase then s.sent == .reg && s.opR == .read else s.sent == .noByte)
  | .regsel => s.opR != .reserved && !s.phase && s.sent == .addr && s.idx == 0 && !s.fail
  | .ackw =>
    s.opR != .reserved && !s.fail
      && (match s.sent with
          | .noByte => false
          | .addr => s.idx == 0 && (!s.phase || s.opR == .read)
          | .reg => !s.phase && s.idx == 0
          | .data => !s.phase && s.opR != .read && (s.opR != .init || s.idx == 0))
  | .rstart => s.opR == .read && !s.phase && s.sent == .reg && s.idx == 0 && !s.fail
  | .dout =>
    !s.phase && !s.fail
      && ((s.opR == .init && s.idx == 0 && s.sent == .reg)
        || (s.opR == .write && s.idx == 0 && s.sent == .reg)
        || (s.opR == .write && s.idx != 0 && s.sent == .data))
  | .din => s.opR == .read && s.phase && s.sent == .addr && !s.fail
  | .mack => s.opR == .read && s.phase && s.sent == .addr && !s.fail && s.idx != 2
  | .mnack => s.opR == .read && s.phase && s.sent == .addr && !s.fail && s.idx == 2
  | .stop => s.opR != .reserved
  | .unusedB | .unusedC | .unusedD | .unusedE | .unusedF => false

/-- The decoded registers are in their legal ranges (R33). -/
def State.rdLegal (s : State) : Bool :=
  s.rd0.toNat ≤ 45 && s.rd1.toNat ≤ 45 && s.rd2.toNat ≤ 85

/-- The bits the encoders never set are clear in `tx[0..2]` (R110). -/
def State.txLegal (s : State) : Bool :=
  s.tx0 &&& 0x30 == 0 && s.tx1 &&& 0x30 == 0 && s.tx2 &&& 0x90 == 0

/-- The invariant of the block's registers: no value the rules never produce (R30, R39), a context that agrees with the
state, legal data, INIT's data byte 0x00 while it runs (R132), and `done` only in IDLE (R31, R146). -/
def State.inv (s : State) : Bool :=
  s.contextOk && s.idx != 3 && s.status != .unused11 && s.rdLegal && s.txLegal
    && (s.st == .idle || s.opR != .init || s.tx0 == 0x00) && (!s.done || s.st == .idle)

/-- The coming edge is a completion edge (R31, R134, R146). -/
def State.completionEdge (s : State) : Bool :=
  !s.env.pins.rst
    && ((s.st == .idle && s.env.pins.cmdValid && s.env.pins.cmdWord.toNat / 2 ^ 17 == 3)
      || s.advancesFrom .stop)

/-- The coming edge accepts the command `i` (R131). -/
def State.accepts (i : Instr) (s : State) : Bool :=
  !s.env.pins.rst && s.st == .idle && s.env.pins.cmdValid && decodeCmd s.env.pins.cmdWord.toNat == i

/-- The same state at an edge with other inputs. -/
def State.withPins (p : Inputs) (s : State) : State := { s with env := { s.env with pins := p } }

/-- The inputs of the next `n` edges, as far as State lists them. -/
def State.inputsAhead (n : Nat) (s : State) : List Inputs := (s.env.pins :: s.env.upcoming).take n

/-- `rd[0..2]` are the result of the READ accepted last (R153, R246). -/
def State.readResultValid (s : State) : Bool := s.done && s.status == .ok && s.opR == .read

/-- The host's duty on operands: values inside the source's domains (R107, R244). A word outside them runs all the same. -/
def inDomain : Instr → Bool
  | .write h m v => h.toNat ≤ 23 && m.toNat ≤ 59 && v.toNat ≤ 59
  | .encSec _ v => v.toNat ≤ 59
  | .encMin _ v => v.toNat ≤ 59
  | .encHour _ v => v.toNat ≤ 23
  | .init _ | .read _ | .reservedCmd _ => true
  | .decSec _ | .decMin _ | .decHour _ | .codecReserved011 _ | .codecReserved111 _ => true
  | .start | .rstart | .tx _ | .ackchk | .rx | .mack | .mnack | .stop => true

/-- A WRITE whose time a READ can return: no tens bit is lost (R243). -/
def noRangeLoss : Instr → Bool
  | .write _ m v => m.toNat ≤ 39 && v.toNat ≤ 39
  | .init _ | .read _ | .reservedCmd _ => true
  | .decSec _ | .decMin _ | .decHour _ | .codecReserved011 _ => true
  | .encSec _ _ | .encMin _ _ | .encHour _ _ | .codecReserved111 _ => true
  | .start | .rstart | .tx _ | .ackchk | .rx | .mack | .mnack | .stop => true

/-- The bus is held wherever the sequencer is past START (R37, R52). -/
def State.busHeldOk (s : State) : Bool :=
  !s.st.requests || s.st == .start || s.env.bus == .held

end Sys2Proof.Machine
end

