-- ==== Sys2Proof/Certificates/Slice0/Obligations.lean ====
section
/-! DEFINITION. The statements for the provers, each over the numbered rules of spec/ its docstring names. -/

open Sys2Proof Sys2Proof.Machine

/-! ## Encoding -/

/-- Every instruction is what its word decodes to, with every operand at every value (R80, R84, R87). -/
def Obligations.DecodeOfEncodeIsTheInstruction : Prop :=
  ∀ i : Instr, decode (encode i) = .ok i

/-- A word that decodes is the word of what it decodes to: no bit of it is dropped, and no instruction has two words. On the
primitive port this rests on the model's choice of log entry 7, by which a primitive other than TX with a byte in `p_wdata`
is refused; R92 by itself decodes a primitive by `p_op` alone. -/
def Obligations.EncodeOfDecodeIsTheWord : Prop :=
  ∀ (p : PortWord) (i : Instr), decode p = .ok i → encode i = p

/-- Words written out from the spec's encodings (95_test_vectors.md 2.4, 2.3, 2.9). -/
def Obligations.SpecWordsDecodeToTheirInstructions : Prop :=
  decode (.cmd19 0b0101110000111100001) = .ok (.write 14 7 33) ∧
  decode (.cmd19 0b0011010101111001101) = .ok (.init 0b11010101111001101) ∧
  decode (.cmd19 0b1000000000000000000) = .ok (.read 0) ∧
  decode (.cmd19 0b1100000000000000000) = .ok (.reservedCmd 0) ∧
  decode (.codec11 0b01000100100) = .ok (.decHour 0x24) ∧
  decode (.codec11 0b10011100001) = .ok (.encSec 0b11 33) ∧
  decode (.codec11 0b11000110111) = .ok (.encHour 0b001 0x17) ∧
  decode (.prim11 0b01011000011) = .ok (.tx 0xC3) ∧
  decode (.prim11 0b00100000000) = .ok .rstart ∧
  decode (.prim11 0b11100000000) = .ok .stop

/-- The decoder refuses exactly the ill-formed words, each by the check that fails (R84, R92; log entry 7 for the check on
`p_wdata`). -/
def Obligations.IllFormedWordsAreRefusedByName : Prop :=
  ∀ p : PortWord,
    (decode p = .error .tooWide ↔ p.fits = false) ∧
    (decode p = .error .wdataNotZero ↔ p.fits = true ∧ p.wdataLegal = false) ∧
    (p.wf = true → ∃ i, decode p = .ok i)

/-- R82: WRITE takes the three fields zero-extended; INIT, READ and the reserved op ignore bits 16:0 entirely. -/
def Obligations.CommandsUseTheirOperandFields : Prop :=
  (∀ (w : BitVec 19) (s : State), w.toNat / 131072 = 1 →
    decodeCmd w.toNat = .write (w.extractLsb' 12 5) (w.extractLsb' 6 6) (w.extractLsb' 0 6) ∧
    (s.st = .idle → ∃ t : State, exec (decodeCmd w.toNat) s = .next t ∧ t.tx0 = encSec (w.extractLsb' 0 6) ∧
      t.tx1 = encMin (w.extractLsb' 6 6) ∧ t.tx2 = encHour (w.extractLsb' 12 5))) ∧
  (∀ (v w : BitVec 19) (s : State), v.toNat / 131072 = w.toNat / 131072 → w.toNat / 131072 ≠ 1 →
    exec (decodeCmd v.toNat) s = exec (decodeCmd w.toNat) s)

/-! ## The codec -/

/-- The decoders: `cx_out` shows 10 times the tens field plus the ones field, and nothing else changes (R101, R102, R103).
That exec records it in `cxSampled` is the model's choice (log entry 6). -/
def Obligations.DecodersShowTensTimesTenPlusOnes : Prop :=
  ∀ (b : Byte) (s : State),
    exec (.decSec b) s = .next { s with cxSampled := BitVec.ofNat 8 (10 * (b.toNat / 64) + b.toNat % 16) } ∧
    exec (.decMin b) s = .next { s with cxSampled := BitVec.ofNat 8 (10 * (b.toNat / 64) + b.toNat % 16) } ∧
    exec (.decHour b) s = .next { s with cxSampled := BitVec.ofNat 8 (10 * (b.toNat / 32) + b.toNat % 16) }

/-- The encoders: the tens digit at bit 6 (seconds, minutes; its bit 2 is lost) or bit 5 (hours), the ones digit below it
(R104, R105, R106). That exec records it in `cxSampled` is the model's choice (log entry 6). -/
def Obligations.EncodersShowTheShiftedDigits : Prop :=
  ∀ (s : State) (u : BitVec 2) (v : BitVec 6) (u' : BitVec 3) (h : BitVec 5),
    exec (.encSec u v) s = .next { s with cxSampled := BitVec.ofNat 8 (v.toNat / 10 % 4 * 64 + v.toNat % 10) } ∧
    exec (.encMin u v) s = .next { s with cxSampled := BitVec.ofNat 8 (v.toNat / 10 % 4 * 64 + v.toNat % 10) } ∧
    exec (.encHour u' h) s = .next { s with cxSampled := BitVec.ofNat 8 (h.toNat / 10 * 32 + h.toNat % 10) }

/-- The two reserved codec codes give `cx_out = 0x00` (R108), recorded in `cxSampled` (log entry 6). -/
def Obligations.ReservedCodecCodesShowZero : Prop :=
  ∀ (u : Byte) (s : State),
    exec (.codecReserved011 u) s = .next { s with cxSampled := 0x00 } ∧
    exec (.codecReserved111 u) s = .next { s with cxSampled := 0x00 }

/-- R108: the port's value by `cx_fn`; the port has no effect on the sequencer, and the sequencer has none on it. (What an
edge records of it, the model's own field, is exempt: log entry 6.) -/
def Obligations.CodecPortIsItsTableAndIsApart : Prop :=
  (∀ s : State, s.outputs.cxOut =
    match s.env.pins.cxFn.toNat with
    | 0 => (decSec s.env.pins.cxIn).setWidth 8
    | 1 => (decMin s.env.pins.cxIn).setWidth 8
    | 2 => (decHour s.env.pins.cxIn).setWidth 8
    | 4 => encSec (s.env.pins.cxIn.extractLsb' 0 6)
    | 5 => encMin (s.env.pins.cxIn.extractLsb' 0 6)
    | 6 => encHour (s.env.pins.cxIn.extractLsb' 0 5)
    | _ => 0x00) ∧
  (∀ (s t t' : State) (fn : BitVec 3) (x : Byte), step s = .next t →
    step (s.withPins { s.env.pins with cxFn := fn, cxIn := x }) = .next t' →
    t' = { t with cxSampled := t'.cxSampled })

/-- R109: the round-trip laws of the codec. -/
def Obligations.CodecRoundTrips : Prop :=
  (∀ h : BitVec 5, (decHour (encHour h)).toNat = h.toNat) ∧
  (∀ v : BitVec 6, v.toNat ≤ 39 → (decSec (encSec v)).toNat = v.toNat ∧ (decMin (encMin v)).toNat = v.toNat) ∧
  (∀ v : BitVec 6, 40 ≤ v.toNat →
    (decSec (encSec v)).toNat = v.toNat - 40 ∧ (decMin (encMin v)).toNat = v.toNat - 40)

/-- R110: the bits the encoders never set, and exactly when they set bit 7 (seconds, minutes) and bit 6 (hours). -/
def Obligations.EncodersSetExactlyTheListedBits : Prop :=
  (∀ v : BitVec 6,
    encSec v &&& 0x30 = 0 ∧ encMin v &&& 0x30 = 0 ∧
    ((encSec v).getLsbD 7 = true ↔ (20 ≤ v.toNat ∧ v.toNat ≤ 39) ∨ 60 ≤ v.toNat) ∧
    ((encMin v).getLsbD 7 = true ↔ (20 ≤ v.toNat ∧ v.toNat ≤ 39) ∨ 60 ≤ v.toNat)) ∧
  (∀ h : BitVec 5,
    encHour h &&& 0x90 = 0 ∧ ((encHour h).getLsbD 6 = true ↔ 20 ≤ h.toNat))

/-- R111: bits 5:4 (seconds, minutes) and bit 4 (hours) are ignored, and flipping any other bit changes the result. -/
def Obligations.DecodersIgnoreExactlyTheListedBits : Prop :=
  ∀ b : Byte,
    (decSec b = decSec (b &&& 0xCF) ∧ decMin b = decMin (b &&& 0xCF) ∧ decHour b = decHour (b &&& 0xEF)) ∧
    (∀ k : Fin 8, k.val ≠ 4 → k.val ≠ 5 →
      decSec (b ^^^ BitVec.ofNat 8 (2 ^ k.val)) ≠ decSec b ∧ decMin (b ^^^ BitVec.ofNat 8 (2 ^ k.val)) ≠ decMin b) ∧
    (∀ k : Fin 8, k.val ≠ 4 → decHour (b ^^^ BitVec.ofNat 8 (2 ^ k.val)) ≠ decHour b)

/-! ## The host commands -/

/-- R132: acceptance of INIT, in the context of R131; everything else is unchanged. -/
def Obligations.InitIsAccepted : Prop :=
  ∀ (u : BitVec 17) (s : State), s.st = .idle →
    exec (.init u) s = .next
      { s with
        st := .start, tx0 := 0x00
        opR := .init, phase := false, sent := .noByte, idx := 0, fail := false, done := false }

/-- R133: acceptance of WRITE encodes the three fields, in the context of R131; everything else is unchanged. -/
def Obligations.WriteIsAccepted : Prop :=
  ∀ (h : BitVec 5) (m v : BitVec 6) (s : State), s.st = .idle →
    exec (.write h m v) s = .next
      { s with
        st := .start
        tx0 := BitVec.ofNat 8 (v.toNat / 10 % 4 * 64 + v.toNat % 10)
        tx1 := BitVec.ofNat 8 (m.toNat / 10 % 4 * 64 + m.toNat % 10)
        tx2 := BitVec.ofNat 8 (h.toNat / 10 * 32 + h.toNat % 10)
        opR := .write, phase := false, sent := .noByte, idx := 0, fail := false, done := false }

/-- R135: acceptance of READ, in the context of R131; no `tx` register is written. -/
def Obligations.ReadIsAccepted : Prop :=
  ∀ (u : BitVec 17) (s : State), s.st = .idle →
    exec (.read u) s = .next
      { s with
        st := .start
        opR := .read, phase := false, sent := .noByte, idx := 0, fail := false, done := false }

/-- R134: acceptance of the reserved op completes at once with BAD_CMD; `st` stays IDLE, so no primitive is requested. -/
def Obligations.ReservedCommandCompletesWithBadCmd : Prop :=
  ∀ (u : BitVec 17) (s : State), s.st = .idle →
    exec (.reservedCmd u) s = .next
      { s with
        status := .badCmd, done := true
        opR := .reserved, phase := false, sent := .noByte, idx := 0, fail := false } ∧
    (∀ t, exec (.reservedCmd u) s = .next t → t.st = .idle ∧ t.outputs.pReq = false)

/-- A command met while the block is busy has no effect: it waits (R154; log entry 12). -/
def Obligations.BusyBlockTurnsCommandsAway : Prop :=
  ∀ (s : State) (u : BitVec 17) (h : BitVec 5) (m v : BitVec 6), s.st ≠ .idle →
    exec (.init u) s = .next s ∧ exec (.write h m v) s = .next s ∧
    exec (.read u) s = .next s ∧ exec (.reservedCmd u) s = .next s

/-! ## The bus primitives -/

/-- START: `st <- ADDR`, and the bus is held (R136, R173, R52); nothing else of the block changes. That a START on a bus
that is already held leaves it held is the model's choice (log entry 16). (`idx = 3` is IndexThreeRecoversToIdle's.) -/
def Obligations.StartCompletes : Prop :=
  ∀ s : State, s.st = .start → s.idx ≠ 3 →
    exec .start s = .next { s with st := .addr, done := false, env := s.env.hearStart } ∧
    s.env.hearStart.bus = .held

/-- RSTART sets `phase` and goes to ADDR, so the next address byte is the read address (R137); the bus stays held (R52,
R175). That an RSTART on a bus that is free makes it held is the model's choice (log entry 16). (`idx = 3` is
IndexThreeRecoversToIdle's.) -/
def Obligations.RepeatedStartCompletes : Prop :=
  ∀ s : State, s.st = .rstart → s.idx ≠ 3 →
    exec .rstart s = .next { s with phase := true, st := .addr, done := false, env := s.env.hearRstart } ∧
    (∀ t, exec .rstart s = .next t → t.request = some (.tx (Config.addrByte ||| 0x01)) ∧ t.env.bus = .held)

/-- The three TX states go to ACKW and record what was sent (R138). That exec runs a TX of any byte there, also of one the
state does not request, is the model's choice (log entry 5). (`idx = 3` is IndexThreeRecoversToIdle's.) -/
def Obligations.TransmitCompletes : Prop :=
  ∀ (s : State) (d : Byte), s.idx ≠ 3 →
    (s.st = .addr →
      exec (.tx d) s = .next { s with sent := .addr, st := .ackw, done := false, env := s.env.hearTx d }) ∧
    (s.st = .regsel →
      exec (.tx d) s = .next { s with sent := .reg, st := .ackw, done := false, env := s.env.hearTx d }) ∧
    (s.st = .dout →
      exec (.tx d) s = .next { s with sent := .data, st := .ackw, done := false, env := s.env.hearTx d })

/-- R139: ACKW's branches. (`idx = 3` is IndexThreeRecoversToIdle's.) -/
def Obligations.AcknowledgeCheckBranches : Prop :=
  ∀ s : State, s.st = .ackw → s.idx ≠ 3 →
    exec .ackchk s = .next
      (if s.env.pins.pAck = false then
        { s with fail := true, st := .stop, done := false, env := s.env.hearAckchk }
      else match s.sent with
        | .addr =>
          if s.phase = false then { s with st := .regsel, done := false, env := s.env.hearAckchk }
          else { s with st := .din, done := false, env := s.env.hearAckchk }
        | .reg =>
          if s.opR = .read then { s with st := .rstart, done := false, env := s.env.hearAckchk }
          else { s with st := .dout, done := false, env := s.env.hearAckchk }
        | .data =>
          if s.opR = .init ∨ s.idx = 2 then { s with st := .stop, done := false, env := s.env.hearAckchk }
          else { s with idx := s.idx + 1, st := .dout, done := false, env := s.env.hearAckchk }
        | .noByte => { s with st := .stop, done := false, env := s.env.hearAckchk })

/-- R143: DIN decodes the byte received into the register `idx` names, and MNACK follows the third byte, MACK the others.
(`idx = 3` is IndexThreeRecoversToIdle's.) -/
def Obligations.ReceiveDecodesTheByte : Prop :=
  ∀ s : State, s.st = .din →
    (s.idx = 0 → exec .rx s = .next
      { s with rd0 := decSec s.env.pins.pRdata, st := .mack, done := false, env := s.env.hearRx }) ∧
    (s.idx = 1 → exec .rx s = .next
      { s with rd1 := decMin s.env.pins.pRdata, st := .mack, done := false, env := s.env.hearRx }) ∧
    (s.idx = 2 → exec .rx s = .next
      { s with rd2 := decHour s.env.pins.pRdata, st := .mnack, done := false, env := s.env.hearRx })

/-- R144: MACK counts the byte and goes on receiving. (`idx = 3` is IndexThreeRecoversToIdle's.) -/
def Obligations.MasterAckCompletes : Prop :=
  ∀ s : State, s.st = .mack → s.idx ≠ 3 →
    exec .mack s = .next { s with idx := s.idx + 1, st := .din, done := false }

/-- R145: MNACK closes the read. (`idx = 3` is IndexThreeRecoversToIdle's.) -/
def Obligations.MasterNackCompletes : Prop :=
  ∀ s : State, s.st = .mnack → s.idx ≠ 3 → exec .mnack s = .next { s with st := .stop, done := false }

/-- R146: STOP completes the command; in the cycle after it `rsp_done` and `cmd_ready` are 1. (`idx = 3` is
IndexThreeRecoversToIdle's.) -/
def Obligations.StopCompletesTheCommand : Prop :=
  ∀ s : State, s.st = .stop → s.idx ≠ 3 →
    exec .stop s = .next
      { s with
        status := if s.fail = true then .nackFail else .ok
        done := true, st := .idle, env := s.env.hearStop } ∧
    s.env.hearStop.bus = .free ∧
    (∀ t, exec .stop s = .next t → t.outputs.rspDone = true ∧ t.outputs.cmdReady = true)

/-- The model's choice (log entry 5) on what R182 makes the driver's duty: a primitive the block does not request stops the
machine where it requests another, and has no effect where it requests none (R142). -/
def Obligations.UnrequestedPrimitiveStopsOrHasNoEffect : Prop :=
  ∀ (i : Instr) (s : State),
    i ∈ [Instr.start, .rstart, .ackchk, .rx, .mack, .mnack, .stop] ∨ (∃ d, i = .tx d) →
    (∀ r, s.request = some r → r ≠ i → (∀ d d', ¬(r = .tx d ∧ i = .tx d')) →
      exec i s = .fault .unrequestedPrimitive) ∧
    (s.st = .idle → exec i s = .next { s with done := false }) ∧
    (s.st ≠ .idle → s.request = none → exec i s = .next { s with st := .idle, done := false })

/-- At `idx = 3`, a value no run reaches (R39), a transaction recovers to IDLE as 93_implementation_defined.md I5 rules: at
the next edge without reset nothing of the block changes but `st` and `done`, whether or not the request completes. That
the request stands meanwhile and is heard where it completes, and that DOUT shows a free byte, is the model's choice (log
entries 11 and 4). -/
def Obligations.IndexThreeRecoversToIdle : Prop :=
  (∀ (s : State) (i : Instr), s.idx = 3 → s.request = some i →
    exec i s = .next { s with st := .idle, done := false, env := s.env.hear i }) ∧
  (∀ s : State, s.idx = 3 → s.st ≠ .idle → s.env.pins.rst = false →
    ∃ t : State, step s = .next t ∧
      { t with cxSampled := s.cxSampled, env := s.env } = { s with st := .idle, done := false }) ∧
  (∀ s : State, s.idx = 3 → s.st = .dout → s.request = some (.tx Config.txThree))

/-! ## The edge -/

/-- A step runs the decoded instruction: the accepted command and the completed request (R130, R131, R170), and beside it
the codec request of every edge, whose record in `cxSampled` is the model's choice (log entry 6); around it the step only
lets time pass. -/
def Obligations.StepRunsTheDecodedInstruction : Prop :=
  (∀ (s : State) (i : Instr), s.accepts i = true →
    step s = Result.andThen (exec s.env.codecRequest s) fun a => Result.andThen (exec i a) fun b => .next b.tick) ∧
  (∀ (s : State) (i : Instr), s.request = some i → s.env.pins.rst = false → s.env.pins.pDone = true →
    step s = Result.andThen (exec s.env.codecRequest s) fun a => Result.andThen (exec i a) fun b => .next b.tick) ∧
  (∀ (s t : State) (i : Instr), s.env.codecRequest = i → step s = .next t →
    ∃ a, exec i s = .next a ∧ t.cxSampled = a.cxSampled)

/-- R140: while the request is not completed no register changes except `done <- 0`, and the same primitive is requested
with the same `p_op` and `p_wdata`, for any number of edges: there is no timeout. (`idx = 3` is
IndexThreeRecoversToIdle's.) -/
def Obligations.RequestIsHeldForAnyNumberOfEdges : Prop :=
  ∀ (n : Nat) (s : State), s.st.requests = true → s.idx ≠ 3 →
    (n ≠ 0 → s.env.attached = false) → n ≤ s.env.upcoming.length →
    (∀ p ∈ s.inputsAhead (n + 1), p.rst = false ∧ p.pDone = false) →
    ∃ t : State, Host.Core.run core (n + 1) s = .next t ∧
      { t with cxSampled := s.cxSampled, env := s.env } = { s with done := false } ∧
      t.env.bus = s.env.bus ∧ t.env.target = s.env.target ∧
      t.outputs.pReq = true ∧ t.outputs.pOp = s.outputs.pOp ∧ t.outputs.pWdata = s.outputs.pWdata

/-- R141: IDLE without a command changes no register except `done <- 0`, and IDLE requests nothing. -/
def Obligations.IdleWithoutCommandOnlyClearsDone : Prop :=
  ∀ s : State, s.st = .idle → s.env.pins.rst = false → s.env.pins.cmdValid = false →
    s.outputs.pReq = false ∧
    ∃ t : State, step s = .next t ∧ { t with cxSampled := s.cxSampled, env := s.env } = { s with done := false } ∧
      t.env.bus = s.env.bus ∧ t.env.target = s.env.target

/-- R39: an unused encoding of `st` goes to IDLE at the next edge without reset, nothing else changes but `done`, and
nothing is requested before or after it. -/
def Obligations.UnusedStateRecoversToIdle : Prop :=
  ∀ s : State, s.st ≠ .idle → s.st.requests = false → s.env.pins.rst = false →
    s.outputs.pReq = false ∧
    ∃ t : State, step s = .next t ∧
      { t with cxSampled := s.cxSampled, env := s.env } = { s with st := .idle, done := false } ∧
      t.env.bus = s.env.bus ∧ t.env.target = s.env.target ∧ t.outputs.pReq = false

/-- R230: at an edge with `rst = 1` every register takes its value of R41, whatever the other inputs and the state are. -/
def Obligations.ResetEdgeResetsEveryRegister : Prop :=
  ∀ s : State, s.env.pins.rst = true →
    ∃ t : State, step s = .next t ∧
      t.st = .idle ∧ t.opR = .init ∧ t.phase = false ∧ t.sent = .noByte ∧ t.idx = 0 ∧ t.fail = false ∧
      t.tx0 = 0x00 ∧ t.tx1 = 0x00 ∧ t.tx2 = 0x00 ∧ t.rd0 = 0 ∧ t.rd1 = 0 ∧ t.rd2 = 0 ∧
      t.status = .ok ∧ t.done = false ∧ t.outputs.cmdReady = true ∧ t.outputs.pReq = false

/-- R41: the registers and the outputs after reset. -/
def Obligations.ResetStateHasTheListedValues : Prop :=
  State.reset.st.code = 0b0000 ∧ State.reset.opR.code = 0b00 ∧ State.reset.phase = false ∧
  State.reset.sent.code = 0b00 ∧ State.reset.idx = 0 ∧ State.reset.fail = false ∧
  State.reset.tx0 = 0x00 ∧ State.reset.tx1 = 0x00 ∧ State.reset.tx2 = 0x00 ∧
  State.reset.rd0 = 0 ∧ State.reset.rd1 = 0 ∧ State.reset.rd2 = 0 ∧
  State.reset.status.code = 0b00 ∧ State.reset.done = false ∧
  State.reset.outputs.cmdReady = true ∧ State.reset.outputs.pReq = false ∧ State.reset.outputs.pOp = 0b000 ∧
  State.reset.outputs.pWdata = 0x00 ∧ State.reset.outputs.rspDone = false

/-- No edge stops the machine: in every state, at every input, there is a next state (R130, R202). -/
def Obligations.EveryEdgeHasANextState : Prop :=
  ∀ s : State, ∃ t : State, step s = .next t

/-- R31: `done` is 1 after a completion edge and 0 after every other edge; it is `rsp_done`, and 0 at reset. -/
def Obligations.DoneIsOneExactlyAfterACompletionEdge : Prop :=
  (∀ s t : State, step s = .next t → (t.done = true ↔ s.completionEdge = true) ∧ t.outputs.rspDone = t.done) ∧
  State.reset.done = false

/-- R30: `status` is written only at completion, with the code of the completed command, and never 0b11. -/
def Obligations.StatusIsTheCodeOfTheLastCompletedCommand : Prop :=
  (Status.code .ok = 0b00 ∧ Status.code .nackFail = 0b01 ∧ Status.code .badCmd = 0b10) ∧
  State.reset.status = .ok ∧
  ∀ s t : State, step s = .next t → s.env.pins.rst = false →
    (s.completionEdge = false → t.status = s.status) ∧
    (s.completionEdge = true → s.st = .idle → t.status = .badCmd) ∧
    (s.completionEdge = true → s.st = .stop → t.status = if s.fail = true then .nackFail else .ok)

/-- R29: only DIN's transition writes `rd[0..2]`, one register per received byte, and without reset nothing clears them.
(With `idx = 3` DIN takes no transition: IndexThreeRecoversToIdle.) -/
def Obligations.OnlyReceivedBytesWriteTheReadRegisters : Prop :=
  (State.reset.rd0 = 0 ∧ State.reset.rd1 = 0 ∧ State.reset.rd2 = 0) ∧
  ∀ s t : State, step s = .next t → s.env.pins.rst = false →
    (s.advancesFrom .din = false → t.rd0 = s.rd0 ∧ t.rd1 = s.rd1 ∧ t.rd2 = s.rd2) ∧
    (s.advancesFrom .din = true →
      t.rd0 = (if s.idx = 0 then decSec s.env.pins.pRdata else s.rd0) ∧
      t.rd1 = (if s.idx = 1 then decMin s.env.pins.pRdata else s.rd1) ∧
      t.rd2 = (if s.idx = 2 then decHour s.env.pins.pRdata else s.rd2)) ∧
    t.outputs.rdSec = t.rd0 ∧ t.outputs.rdMin = t.rd1 ∧ t.outputs.rdHour = t.rd2

/-- Without reset `tx[0..2]` change only at acceptance of INIT, which writes `tx[0]`, or of WRITE (R28, R132, R133). -/
def Obligations.OnlyInitAndWriteWriteTheTransmitRegisters : Prop :=
  ∀ s t : State, step s = .next t → s.env.pins.rst = false →
    ((∀ u, s.accepts (.init u) = false) → (∀ h m v, s.accepts (.write h m v) = false) →
      t.tx0 = s.tx0 ∧ t.tx1 = s.tx1 ∧ t.tx2 = s.tx2) ∧
    (∀ u, s.accepts (.init u) = true → t.tx0 = 0x00 ∧ t.tx1 = s.tx1 ∧ t.tx2 = s.tx2) ∧
    (∀ h m v, s.accepts (.write h m v) = true → t.tx0 = encSec v ∧ t.tx1 = encMin m ∧ t.tx2 = encHour h)

/-- At an edge without reset that accepts no command, each context register changes only where its rule says: `op_r` nowhere
(R23), `phase` at RSTART (R24), `sent` at the TX states (R25), `idx` after a data byte that is not the last and after MACK
(R26), `fail` at a NACK (R27). -/
def Obligations.ContextChangesOnlyWhereListed : Prop :=
  ∀ s t : State, step s = .next t → s.env.pins.rst = false → (∀ i, s.accepts i = false) →
    t.opR = s.opR ∧
    t.phase = (s.phase || s.advancesFrom .rstart) ∧
    t.sent = (if s.advancesFrom .addr = true then .addr else if s.advancesFrom .regsel = true then .reg
      else if s.advancesFrom .dout = true then .data else s.sent) ∧
    t.idx = (if s.advancesFrom .mack = true ∨
        (s.advancesFrom .ackw = true ∧ s.env.pins.pAck = true ∧ s.sent = .data ∧ s.opR ≠ .init ∧ s.idx ≠ 2)
      then s.idx + 1 else s.idx) ∧
    t.fail = (s.fail || (s.advancesFrom .ackw && !s.env.pins.pAck))

/-- R131: acceptance writes the context from `cmd_word`, and at every edge that accepts nothing `cmd_word` is not read. -/
def Obligations.AcceptanceWritesAFreshContext : Prop :=
  (∀ s t : State, s.st = .idle → s.env.pins.cmdValid = true → s.env.pins.rst = false → step s = .next t →
    t.opR.code = s.env.pins.cmdWord.extractLsb' 17 2 ∧ t.phase = false ∧ t.sent = .noByte ∧ t.idx = 0 ∧
    t.fail = false) ∧
  (∀ (s : State) (w : BitVec 19), ¬(s.st = .idle ∧ s.env.pins.cmdValid = true ∧ s.env.pins.rst = false) →
    step (s.withPins { s.env.pins with cmdWord := w }) = step s)

/-- R154: while `st ≠ IDLE`, `cmd_ready = 0` and no command is accepted: what the host offers changes nothing. -/
def Obligations.NoCommandIsAcceptedWhileBusy : Prop :=
  ∀ (s : State) (v : Bool) (w : BitVec 19), s.st ≠ .idle →
    s.outputs.cmdReady = false ∧ (∀ i, s.accepts i = false) ∧
    step (s.withPins { s.env.pins with cmdValid := v, cmdWord := w }) = step s

/-- R142: `p_ack` is read only in ACKW, `p_rdata` only in DIN, `p_done` only where a primitive is requested. -/
def Obligations.ResponseInputsAreReadOnlyWhereListed : Prop :=
  ∀ (s : State) (a d : Bool) (x : Byte),
    (s.st ≠ .ackw → step (s.withPins { s.env.pins with pAck := a }) = step s) ∧
    (s.st ≠ .din → step (s.withPins { s.env.pins with pRdata := x }) = step s) ∧
    (s.outputs.pReq = false → step (s.withPins { s.env.pins with pDone := d }) = step s)

/-- No transaction reads a context register left by an earlier one (R36). -/
def Obligations.AcceptanceForgetsTheOldContext : Prop :=
  ∀ (s : State) (i : Instr) (op : Op) (ph fl : Bool) (se : Sent) (ix : BitVec 2), s.accepts i = true →
    step { s with opR := op, phase := ph, sent := se, idx := ix, fail := fl } = step s

/-- R171: the primitive each state requests. -/
def Obligations.EachStateRequestsItsPrimitive : Prop :=
  ∀ s : State,
    (s.st = .start → s.outputs.pReq = true ∧ s.outputs.pOp = 0b000) ∧
    (s.st = .rstart → s.outputs.pReq = true ∧ s.outputs.pOp = 0b001) ∧
    (s.st = .addr ∨ s.st = .regsel ∨ s.st = .dout → s.outputs.pReq = true ∧ s.outputs.pOp = 0b010) ∧
    (s.st = .ackw → s.outputs.pReq = true ∧ s.outputs.pOp = 0b011) ∧
    (s.st = .din → s.outputs.pReq = true ∧ s.outputs.pOp = 0b100) ∧
    (s.st = .mack → s.outputs.pReq = true ∧ s.outputs.pOp = 0b101) ∧
    (s.st = .mnack → s.outputs.pReq = true ∧ s.outputs.pOp = 0b110) ∧
    (s.st = .stop → s.outputs.pReq = true ∧ s.outputs.pOp = 0b111) ∧
    (s.st.code = 0 ∨ 11 ≤ s.st.code.toNat → s.outputs.pReq = false ∧ s.outputs.pOp = 0b000)

/-- R84: the request is `p_op` over `p_wdata`; only TX carries a byte, which is the address byte, `REG_SECONDS` or
`tx[idx]` (R174), and both fields are zero while nothing is requested. -/
def Obligations.RequestIsItsWord : Prop :=
  ∀ s : State,
    (∀ i, s.request = some i →
      s.outputs.pReq = true ∧ encode i = .prim11 (s.outputs.pOp.toNat * 256 + s.outputs.pWdata.toNat)) ∧
    (s.outputs.pReq = false → s.request = none ∧ s.outputs.pOp = 0b000 ∧ s.outputs.pWdata = 0x00) ∧
    (s.outputs.pOp ≠ 0b010 → s.outputs.pWdata = 0x00) ∧
    (s.st = .addr → s.outputs.pWdata =
      if s.phase = false then Config.addrByte &&& 0xFE else Config.addrByte ||| 0x01) ∧
    (s.st = .regsel → s.outputs.pWdata = Config.regSeconds) ∧
    (s.st = .dout →
      (s.idx = 0 → s.outputs.pWdata = s.tx0) ∧ (s.idx = 1 → s.outputs.pWdata = s.tx1) ∧
      (s.idx = 2 → s.outputs.pWdata = s.tx2))

/-! ## Invariants -/

/-- The invariants hold after reset: of the registers, of the bus, and the canonical form of memory. What the bus and the
target's registers hold there is the model's choice (log entries 8 and 9). -/
def Obligations.InvariantsHoldAtReset : Prop :=
  State.reset.inv = true ∧ State.reset.busHeldOk = true ∧ Memory.wf State.reset.env.target.regs = true

/-- Every edge keeps the invariant of the registers: no unused encoding, no `idx = 3`, no status 0b11, a context that agrees
with the state, `rd` in the legal ranges, `done` only in IDLE (R30, R33, R36, R39, R110). -/
def Obligations.EveryEdgeKeepsTheInvariant : Prop :=
  ∀ s t : State, s.inv = true → step s = .next t → t.inv = true

/-- Every edge keeps the target's memory in canonical form. -/
def Obligations.EveryEdgeKeepsMemoryCanonical : Prop :=
  ∀ s t : State, Memory.wf s.env.target.regs = true → step s = .next t → Memory.wf t.env.target.regs = true

/-- Every edge keeps the bus held wherever the sequencer is past START (R37, R52). -/
def Obligations.EveryEdgeKeepsTheBusHeldInATransaction : Prop :=
  ∀ s t : State, s.busHeldOk = true → step s = .next t → t.busHeldOk = true

/-! ## The environment -/

/-- The only byte of memory an instruction changes is the one a data TX stores, at the target's pointer (R54, R67). The
memory is in its canonical form (EveryEdgeKeepsMemoryCanonical) where the stored byte is read back. -/
def Obligations.OnlyADataByteChangesMemory : Prop :=
  ∀ (i : Instr) (s t : State), exec i s = .next t →
    (∀ a : Nat, (∀ d, i = .tx d → s.st.sends = true → s.env.storesAt ≠ some a) →
      Memory.readByte a t.env.target.regs = Memory.readByte a s.env.target.regs) ∧
    (∀ (a : Nat) (d : Byte), Memory.wf s.env.target.regs = true → i = .tx d → s.st.sends = true →
      s.env.storesAt = some a → Memory.readByte a t.env.target.regs = d)

/-- What the attached target makes of each primitive it hears, all of its fields (R67, R68). That it hears a TX of any byte,
also of one the state does not request, is the model's choice (log entry 5). -/
def Obligations.TargetHearsThePrimitives : Prop :=
  ∀ (s : State) (d : Byte), s.env.attached = true →
    (s.st = .start → ∃ t : State, exec .start s = .next t ∧
      t.env.target = { s.env.target with ackCount := 0, addressNext := true }) ∧
    (s.st = .rstart → ∃ t : State, exec .rstart s = .next t ∧
      t.env.target = { s.env.target with addressNext := true }) ∧
    (s.st.sends = true → s.env.target.addressNext = true → ∃ t : State, exec (.tx d) s = .next t ∧
      t.env.target =
        { s.env.target with
          dir := if d.getLsbD 0 = true then .read else .write
          first := true, addressNext := false
          byteAcked := some (s.env.target.present && d.toNat / 2 == Config.addrByte.toNat / 2) }) ∧
    (s.st.sends = true → s.env.target.addressNext = false → s.env.target.dir = .write → s.env.target.first = true →
      ∃ t : State, exec (.tx d) s = .next t ∧
        t.env.target = { s.env.target with ptr := d, first := false, byteAcked := some true }) ∧
    (s.st.sends = true → s.env.target.addressNext = false → s.env.target.dir = .write → s.env.target.first = false →
      ∃ t : State, exec (.tx d) s = .next t ∧
        t.env.target =
          { s.env.target with
            regs := Memory.writeByte s.env.target.ptr.toNat d s.env.target.regs
            ptr := s.env.target.ptr + 1, byteAcked := some true }) ∧
    (s.st = .ackw → ∃ t : State, exec .ackchk s = .next t ∧
      t.env.target = { s.env.target with ackCount := s.env.target.ackCount + 1 }) ∧
    (s.st = .din → s.env.target.dir = .read → ∃ t : State, exec .rx s = .next t ∧
      t.env.target = { s.env.target with ptr := s.env.target.ptr + 1 }) ∧
    (s.st = .mack → ∃ t : State, exec .mack s = .next t ∧ t.env.target = s.env.target) ∧
    (s.st = .mnack → ∃ t : State, exec .mnack s = .next t ∧ t.env.target = s.env.target) ∧
    (s.st = .stop → ∃ t : State, exec .stop s = .next t ∧ t.env.target = s.env.target)

/-- What the attached target answers to the request after an edge (R67, R68, R69). -/
def Obligations.TargetAnswersTheRequest : Prop :=
  ∀ s t : State, step s = .next t → t.env.attached = true → t.st.requests = true →
    t.env.pins.pDone = true ∧
    (∀ b, t.env.target.byteAcked = some b →
      (t.env.pins.pAck = true ↔ b = true ∧ t.env.target.nackAt ≠ some (t.env.target.ackCount + 1))) ∧
    (t.env.target.dir = .read → t.env.pins.pRdata = Memory.readByte t.env.target.ptr.toNat t.env.target.regs)

/-! ## Transactions -/

/-- A NACK at any ACKCHK leaves only STOP, and STOP then completes with NACK_FAIL, however long it waits (R150, R206, R207). -/
def Obligations.NackAbortsAndReleases : Prop :=
  (∀ s t : State, s.advancesFrom .ackw = true → s.env.pins.pAck = false → step s = .next t →
    t.request = some .stop ∧ t.fail = true ∧ t.remaining = [.stop] ∧
    t.tx0 = s.tx0 ∧ t.tx1 = s.tx1 ∧ t.tx2 = s.tx2 ∧ t.rd0 = s.rd0 ∧ t.rd1 = s.rd1 ∧ t.rd2 = s.rd2 ∧
    t.env.target.regs = s.env.target.regs) ∧
  (∀ s t : State, s.st = .stop → s.fail = true → s.idx ≠ 3 → s.env.pins.rst = false → step s = .next t →
    (s.env.pins.pDone = false → t.st = .stop ∧ t.fail = true) ∧
    (s.env.pins.pDone = true → t.st = .idle ∧ t.status = .nackFail ∧ t.done = true ∧ t.env.bus = .free))

/-- Each edge plays the transaction's sequence: acceptance leaves the whole of it, a completed primitive is the head of what
is left, a NACK leaves only STOP, and nothing else consumes it (R147 to R151). -/
def Obligations.EachEdgePlaysTheSequence : Prop :=
  ∀ s t : State, s.inv = true → s.env.pins.rst = false → step s = .next t →
    (∀ i, s.accepts i = true → t.remaining = fullSequence i) ∧
    ((∀ i, s.accepts i = false) → s.completesPrimitive = false → t.remaining = s.remaining) ∧
    (s.completesPrimitive = true → ∃ p ps, s.request = some p ∧ s.remaining = p :: ps ∧
      t.remaining = if p = .ackchk ∧ s.env.pins.pAck = false then [.stop] else ps)

/-- Over any number of edges without reset or a new command, with a bus driver that answers and waits as it likes, the
primitive trace is the transaction-level reading of what was left to issue (R147 to R152). -/
def Obligations.EdgesRefineTheTransaction : Prop :=
  ∀ (n : Nat) (s : State), s.inv = true → s.env.attached = false → n ≤ s.env.upcoming.length + 1 →
    (∀ p ∈ s.inputsAhead n, p.rst = false ∧ p.cmdValid = false) →
    (primTrace n s).map TraceEntry.word = (played s.remaining (s.inputsAhead n)).map encode

/-- INIT, WRITE and READ, each with NACK at its `j`-th check or at none (`j = 0`), and every primitive completed in its first
cycle: the command issues exactly its sequence, completes in as many edges as it has primitives, and its status says whether
a check failed. Without a NACK, READ's results are the decoded bytes; with one, no `rd` register is written (R147 to R151,
R251). -/
def Obligations.CommandsIssueTheirSequencesAndComplete : Prop :=
  ∀ (s : State) (i : Instr) (j : Nat), s.accepts i = true → fullSequence i ≠ [] → j ≤ checkCount i →
    s.env.attached = false → answeredWithNackAt j (nackedAt j (fullSequence i)) s.env.upcoming = true →
    ∃ t : State, Host.Core.run core ((nackedAt j (fullSequence i)).length + 1) s = .next t ∧
      t.st = .idle ∧ t.done = true ∧ t.status = (if j = 0 then .ok else .nackFail) ∧ t.env.bus = .free ∧
      (primTrace ((nackedAt j (fullSequence i)).length + 1) s).map TraceEntry.word =
        (nackedAt j (fullSequence i)).map encode ∧
      ((∀ u, i ≠ .read u) ∨ j ≠ 0 → t.rd0 = s.rd0 ∧ t.rd1 = s.rd1 ∧ t.rd2 = s.rd2) ∧
      (∀ u a b c, i = .read u → j = 0 → s.env.upcoming[8]? = some a → s.env.upcoming[10]? = some b →
        s.env.upcoming[12]? = some c →
        t.rd0 = decSec a.pRdata ∧ t.rd1 = decMin b.pRdata ∧ t.rd2 = decHour c.pRdata)

/-- WRITE against the reference target, present and without a NACK: after its 12 primitives the status is OK, the three
encoded bytes stand at `REG_SECONDS` and the two offsets after it, and no other byte has changed (R54, R148). -/
def Obligations.WriteReachesTheTarget : Prop :=
  ∀ (s : State) (h : BitVec 5) (m v : BitVec 6), s.accepts (.write h m v) = true →
    s.env.attached = true → s.env.target.present = true → s.env.target.nackAt = none →
    Memory.wf s.env.target.regs = true → 12 ≤ s.env.upcoming.length → (∀ p ∈ s.env.upcoming.take 12, p.rst = false) →
    ∃ t : State, Host.Core.run core 13 s = .next t ∧ t.st = .idle ∧ t.done = true ∧ t.status = .ok ∧
      t.env.bus = .free ∧ t.env.target.ptr = Config.regSeconds + 3 ∧
      Memory.readByte Config.regSeconds.toNat t.env.target.regs = encSec v ∧
      Memory.readByte (Config.regSeconds + 1).toNat t.env.target.regs = encMin m ∧
      Memory.readByte (Config.regSeconds + 2).toNat t.env.target.regs = encHour h ∧
      (∀ a : Nat, a ≠ Config.regSeconds.toNat → a ≠ (Config.regSeconds + 1).toNat →
        a ≠ (Config.regSeconds + 2).toNat →
        Memory.readByte a t.env.target.regs = Memory.readByte a s.env.target.regs)

/-- READ against the reference target, present and without a NACK: after its 15 primitives the status is OK, `rd[0..2]` are
the decoded bytes at `REG_SECONDS` and the two offsets after it, and memory is unchanged (R54, R149). -/
def Obligations.ReadReturnsTheTargetsBytes : Prop :=
  ∀ (s : State) (u : BitVec 17), s.accepts (.read u) = true →
    s.env.attached = true → s.env.target.present = true → s.env.target.nackAt = none →
    15 ≤ s.env.upcoming.length → (∀ p ∈ s.env.upcoming.take 15, p.rst = false) →
    ∃ t : State, Host.Core.run core 16 s = .next t ∧ t.st = .idle ∧ t.done = true ∧ t.status = .ok ∧
      t.rd0 = decSec (Memory.readByte Config.regSeconds.toNat s.env.target.regs) ∧
      t.rd1 = decMin (Memory.readByte (Config.regSeconds + 1).toNat s.env.target.regs) ∧
      t.rd2 = decHour (Memory.readByte (Config.regSeconds + 2).toNat s.env.target.regs) ∧
      t.env.target.regs = s.env.target.regs ∧ t.env.bus = .free

/-- Wherever a request meets `p_done = 1` the primitive completes, at a reset edge and at `idx = 3` too (R170): the trace
lists its word (R152), and the target has heard it (R67, R68); the response stands in the entry where the state's transition
reads it (R142; log entry 15). -/
def Obligations.PrimitiveCompletesWhereRequestMeetsDone : Prop :=
  ∀ (s t : State) (i : Instr), s.request = some i → s.env.pins.pDone = true → step s = .next t →
    s.completesPrimitive = true ∧ t.env.target = (s.env.hear i).target ∧
    (s.env.pins.rst = false → t.env.bus = (s.env.hear i).bus) ∧
    (s.env.pins.rst = true → t.st = .idle) ∧
    ∃ e : TraceEntry, s.traceEntry = [e] ∧ e.word = encode i ∧
      e.ack = (if s.st = .ackw ∧ s.env.pins.rst = false ∧ s.idx ≠ 3 then some s.env.pins.pAck else none) ∧
      e.rdata = (if s.st = .din ∧ s.env.pins.rst = false ∧ s.idx ≠ 3 then some s.env.pins.pRdata else none)
end

