-- ==== Sys2Proof/Laws/Memory.lean ====
section
/-! SUPPORT. The laws of memory: a write keeps the canonical form, the byte written reads back, every other byte reads as
before. -/

namespace Sys2Proof.Machine

theorem Memory.sortedFrom_cons {lo : Nat} {c : Host.Cell} {m : Memory} :
    Memory.sortedFrom lo (c :: m) = true ↔
      lo ≤ c.1 ∧ c.1 < 256 ∧ c.2 ≠ Memory.blankByte ∧ Memory.sortedFrom (c.1 + 1) m = true := by
  simp [Memory.sortedFrom, and_assoc]

theorem Memory.sortedFrom_mono {lo lo' : Nat} (h : lo ≤ lo') :
    ∀ m : Memory, Memory.sortedFrom lo' m = true → Memory.sortedFrom lo m = true
  | [], _ => rfl
  | c :: m, hm => by
    rw [Memory.sortedFrom_cons] at hm ⊢
    exact ⟨le_trans h hm.1, hm.2⟩

/-- A byte put before a memory that begins above it: listed, or left out where it is `blankByte`. -/
theorem Memory.sortedFrom_entry {lo a : Nat} (v : Byte) (hlo : lo ≤ a) (ha : a < 256) {m : Memory}
    (hm : Memory.sortedFrom (a + 1) m = true) : Memory.sortedFrom lo (Memory.entry a v ++ m) = true := by
  by_cases hv : v = Memory.blankByte
  · simpa [Memory.entry, hv] using Memory.sortedFrom_mono (by omega) m hm
  · simp [Memory.entry, hv, Memory.sortedFrom_cons, hlo, ha, hm]

theorem Memory.sortedFrom_writeByte {a : Nat} (v : Byte) (ha : a < 256) :
    ∀ (lo : Nat) (m : Memory), lo ≤ a → Memory.sortedFrom lo m = true →
      Memory.sortedFrom lo (Memory.writeByte a v m) = true
  | lo, [], hlo, _ => by simpa [Memory.writeByte] using Memory.sortedFrom_entry (m := []) v hlo ha rfl
  | lo, c :: m, hlo, hm => by
    obtain ⟨hc, hc', hb, hm⟩ := Memory.sortedFrom_cons.1 hm
    unfold Memory.writeByte
    split
    · next h => exact Memory.sortedFrom_entry v hlo ha (Memory.sortedFrom_cons.2 ⟨h, hc', hb, hm⟩)
    · split
      · next h => subst h; exact Memory.sortedFrom_entry v hlo ha hm
      · next h h' =>
        exact Memory.sortedFrom_cons.2
          ⟨hc, hc', hb, Memory.sortedFrom_writeByte v ha (c.1 + 1) m (by omega) hm⟩

/-- A write to one of the 256 offsets keeps the canonical form. -/
theorem Memory.wf_writeByte {a : Nat} {v : Byte} {m : Memory} (ha : a < 256) (h : Memory.wf m = true) :
    Memory.wf (Memory.writeByte a v m) = true :=
  Memory.sortedFrom_writeByte v ha 0 m (Nat.zero_le a) h

/-- Below the first listed offset every byte is `blankByte`. -/
theorem Memory.readByte_below {a : Nat} :
    ∀ (lo : Nat) (m : Memory), a < lo → Memory.sortedFrom lo m = true → Memory.readByte a m = Memory.blankByte
  | _, [], _, _ => rfl
  | lo, c :: m, ha, hm => by
    obtain ⟨hc, _, _, hm⟩ := Memory.sortedFrom_cons.1 hm
    have : a ≠ c.1 := by omega
    have hb := Memory.readByte_below (a := a) (c.1 + 1) m (by omega) hm
    simp [Memory.readByte, this, hb]

theorem Memory.readByte_entry_same {a : Nat} (v : Byte) {m : Memory} (hm : Memory.sortedFrom (a + 1) m = true) :
    Memory.readByte a (Memory.entry a v ++ m) = v := by
  by_cases hv : v = Memory.blankByte
  · simp [Memory.entry, hv, Memory.readByte_below (a + 1) m (Nat.lt_succ_self a) hm]
  · simp [Memory.entry, hv, Memory.readByte]

theorem Memory.readByte_entry_other {a b : Nat} (v : Byte) (hab : b ≠ a) (m : Memory) :
    Memory.readByte b (Memory.entry a v ++ m) = Memory.readByte b m := by
  by_cases hv : v = Memory.blankByte
  · simp [Memory.entry, hv]
  · simp [Memory.entry, hv, Memory.readByte, hab]

theorem Memory.readByte_writeByte_sorted {a : Nat} (v : Byte) :
    ∀ (lo : Nat) (m : Memory), Memory.sortedFrom lo m = true → Memory.readByte a (Memory.writeByte a v m) = v
  | _, [], _ => by simpa [Memory.writeByte] using Memory.readByte_entry_same (m := []) v rfl
  | lo, c :: m, hm => by
    obtain ⟨hc, hc', hb, hm⟩ := Memory.sortedFrom_cons.1 hm
    unfold Memory.writeByte
    split
    · next h => exact Memory.readByte_entry_same v (Memory.sortedFrom_cons.2 ⟨h, hc', hb, hm⟩)
    · split
      · next h => subst h; exact Memory.readByte_entry_same v hm
      · next h => simp [Memory.readByte, h, Memory.readByte_writeByte_sorted v (c.1 + 1) m hm]

/-- The byte written reads back. -/
theorem Memory.readByte_writeByte_same (a : Nat) (v : Byte) {m : Memory} (h : Memory.wf m = true) :
    Memory.readByte a (Memory.writeByte a v m) = v :=
  Memory.readByte_writeByte_sorted v 0 m h

/-- Every other byte reads as before. -/
theorem Memory.readByte_writeByte_other {a b : Nat} (v : Byte) (hab : b ≠ a) :
    ∀ m : Memory, Memory.readByte b (Memory.writeByte a v m) = Memory.readByte b m
  | [] => by simpa [Memory.writeByte] using Memory.readByte_entry_other v hab []
  | c :: m => by
    unfold Memory.writeByte
    split
    · exact Memory.readByte_entry_other v hab _
    · split
      · next h =>
        subst h
        rw [Memory.readByte_entry_other v hab]
        simp [Memory.readByte, hab]
      · simp [Memory.readByte, Memory.readByte_writeByte_other v hab m]

/-- What T hears leaves every byte but the one a data TX stores as it was (R67, R68). -/
theorem Target.hearTx_readByte (d : Byte) (t : Target) {a : Nat} (h : ∀ x, t.storesAt = some x → a ≠ x) :
    Memory.readByte a (t.hearTx d).regs = Memory.readByte a t.regs := by
  unfold Target.storesAt at h
  unfold Target.hearTx
  split
  · rfl
  · next hn =>
    cases hd : t.dir with
    | read => rfl
    | write =>
      dsimp only
      split
      · rfl
      · next hf =>
        simp [hn, hd, hf] at h
        exact Memory.readByte_writeByte_other d h t.regs

/-- A data TX stores its byte (R67). -/
theorem Target.hearTx_readByte_stored (d : Byte) (t : Target) {a : Nat} (hw : Memory.wf t.regs = true)
    (h : t.storesAt = some a) : Memory.readByte a (t.hearTx d).regs = d := by
  unfold Target.storesAt at h
  unfold Target.hearTx
  split at h
  · exact absurd h (by simp)
  · next hn =>
    rw [if_neg hn]
    cases hd : t.dir with
    | read => simp [hd] at h
    | write =>
      simp only [hd] at h ⊢
      split at h
      · exact absurd h (by simp)
      · next hf =>
        cases h
        rw [if_neg hf]
        exact Memory.readByte_writeByte_same _ d hw

theorem Target.hearTx_wf (d : Byte) (t : Target) (h : Memory.wf t.regs = true) :
    Memory.wf (t.hearTx d).regs = true := by
  unfold Target.hearTx
  split
  · exact h
  · cases t.dir with
    | read => exact h
    | write =>
      dsimp only
      split
      · exact h
      · exact Memory.wf_writeByte t.ptr.isLt h

@[simp] theorem Target.hearStart_regs (t : Target) : t.hearStart.regs = t.regs := rfl
@[simp] theorem Target.hearRstart_regs (t : Target) : t.hearRstart.regs = t.regs := rfl
@[simp] theorem Target.hearAckchk_regs (t : Target) : t.hearAckchk.regs = t.regs := rfl
@[simp] theorem Target.hearRx_regs (t : Target) : t.hearRx.regs = t.regs := by
  unfold Target.hearRx; cases t.dir <;> rfl

/-! ### The environment: what each primitive leaves as it was -/

variable (f : Target → Target) (e : Env)

@[simp] theorem Env.heard_pins : (e.heard f).pins = e.pins := rfl
@[simp] theorem Env.heard_upcoming : (e.heard f).upcoming = e.upcoming := rfl
@[simp] theorem Env.heard_edge : (e.heard f).edge = e.edge := rfl
@[simp] theorem Env.heard_bus : (e.heard f).bus = e.bus := rfl
@[simp] theorem Env.heard_attached : (e.heard f).attached = e.attached := rfl
theorem Env.heard_target : (e.heard f).target = if e.attached then f e.target else e.target := rfl

/-! ### What each completed primitive leaves of the environment -/

@[simp] theorem Env.hearStart_pins : e.hearStart.pins = e.pins := rfl
@[simp] theorem Env.hearStart_upcoming : e.hearStart.upcoming = e.upcoming := rfl
@[simp] theorem Env.hearStart_edge : e.hearStart.edge = e.edge := rfl
@[simp] theorem Env.hearStart_attached : e.hearStart.attached = e.attached := rfl
@[simp] theorem Env.hearStart_bus : e.hearStart.bus = .held := rfl
theorem Env.hearStart_target : e.hearStart.target = if e.attached then Target.hearStart e.target else e.target := rfl
@[simp] theorem Env.hearStart_regs : e.hearStart.target.regs = e.target.regs := by
  rw [Env.hearStart_target]; split <;> simp
@[simp] theorem Env.hearRstart_pins : e.hearRstart.pins = e.pins := rfl
@[simp] theorem Env.hearRstart_upcoming : e.hearRstart.upcoming = e.upcoming := rfl
@[simp] theorem Env.hearRstart_edge : e.hearRstart.edge = e.edge := rfl
@[simp] theorem Env.hearRstart_attached : e.hearRstart.attached = e.attached := rfl
@[simp] theorem Env.hearRstart_bus : e.hearRstart.bus = .held := rfl
theorem Env.hearRstart_target : e.hearRstart.target = if e.attached then Target.hearRstart e.target else e.target := rfl
@[simp] theorem Env.hearRstart_regs : e.hearRstart.target.regs = e.target.regs := by
  rw [Env.hearRstart_target]; split <;> simp
@[simp] theorem Env.hearTx_pins (d : Byte) : (Env.hearTx d e).pins = e.pins := rfl
@[simp] theorem Env.hearTx_upcoming (d : Byte) : (Env.hearTx d e).upcoming = e.upcoming := rfl
@[simp] theorem Env.hearTx_edge (d : Byte) : (Env.hearTx d e).edge = e.edge := rfl
@[simp] theorem Env.hearTx_attached (d : Byte) : (Env.hearTx d e).attached = e.attached := rfl
@[simp] theorem Env.hearTx_bus (d : Byte) : (Env.hearTx d e).bus = e.bus := rfl
theorem Env.hearTx_target (d : Byte) : (Env.hearTx d e).target = if e.attached then (Target.hearTx d) e.target else e.target := rfl
@[simp] theorem Env.hearAckchk_pins : e.hearAckchk.pins = e.pins := rfl
@[simp] theorem Env.hearAckchk_upcoming : e.hearAckchk.upcoming = e.upcoming := rfl
@[simp] theorem Env.hearAckchk_edge : e.hearAckchk.edge = e.edge := rfl
@[simp] theorem Env.hearAckchk_attached : e.hearAckchk.attached = e.attached := rfl
@[simp] theorem Env.hearAckchk_bus : e.hearAckchk.bus = e.bus := rfl
theorem Env.hearAckchk_target : e.hearAckchk.target = if e.attached then Target.hearAckchk e.target else e.target := rfl
@[simp] theorem Env.hearAckchk_regs : e.hearAckchk.target.regs = e.target.regs := by
  rw [Env.hearAckchk_target]; split <;> simp
@[simp] theorem Env.hearRx_pins : e.hearRx.pins = e.pins := rfl
@[simp] theorem Env.hearRx_upcoming : e.hearRx.upcoming = e.upcoming := rfl
@[simp] theorem Env.hearRx_edge : e.hearRx.edge = e.edge := rfl
@[simp] theorem Env.hearRx_attached : e.hearRx.attached = e.attached := rfl
@[simp] theorem Env.hearRx_bus : e.hearRx.bus = e.bus := rfl
theorem Env.hearRx_target : e.hearRx.target = if e.attached then Target.hearRx e.target else e.target := rfl
@[simp] theorem Env.hearRx_regs : e.hearRx.target.regs = e.target.regs := by
  rw [Env.hearRx_target]; split <;> simp
@[simp] theorem Env.hearStop_pins : e.hearStop.pins = e.pins := rfl
@[simp] theorem Env.hearStop_upcoming : e.hearStop.upcoming = e.upcoming := rfl
@[simp] theorem Env.hearStop_edge : e.hearStop.edge = e.edge := rfl
@[simp] theorem Env.hearStop_attached : e.hearStop.attached = e.attached := rfl
@[simp] theorem Env.hearStop_bus : e.hearStop.bus = .free := rfl
@[simp] theorem Env.hearStop_target : e.hearStop.target = e.target := rfl

/-- Hearing a TX keeps the canonical form of memory. -/
theorem Env.hearTx_wf (d : Byte) (h : Memory.wf e.target.regs = true) :
    Memory.wf (Env.hearTx d e).target.regs = true := by
  rw [Env.hearTx_target]
  split
  · exact Target.hearTx_wf d e.target h
  · exact h

/-! ### What the environment hears of any primitive -/

@[simp] theorem Env.hear_start : e.hear .start = e.hearStart := rfl
@[simp] theorem Env.hear_rstart : e.hear .rstart = e.hearRstart := rfl
@[simp] theorem Env.hear_tx (d : Byte) : e.hear (.tx d) = e.hearTx d := rfl
@[simp] theorem Env.hear_ackchk : e.hear .ackchk = e.hearAckchk := rfl
@[simp] theorem Env.hear_rx : e.hear .rx = e.hearRx := rfl
@[simp] theorem Env.hear_mack : e.hear .mack = e := rfl
@[simp] theorem Env.hear_mnack : e.hear .mnack = e := rfl
@[simp] theorem Env.hear_stop : e.hear .stop = e.hearStop := rfl

@[simp] theorem Env.hear_pins (i : Instr) : (e.hear i).pins = e.pins := by cases i <;> rfl
@[simp] theorem Env.hear_upcoming (i : Instr) : (e.hear i).upcoming = e.upcoming := by cases i <;> rfl
@[simp] theorem Env.hear_edge (i : Instr) : (e.hear i).edge = e.edge := by cases i <;> rfl
@[simp] theorem Env.hear_attached (i : Instr) : (e.hear i).attached = e.attached := by cases i <;> rfl

/-- Hearing a primitive keeps the canonical form of memory. -/
theorem Env.hear_wf (i : Instr) (h : Memory.wf e.target.regs = true) :
    Memory.wf (e.hear i).target.regs = true := by
  cases i with
  | tx d => exact Env.hearTx_wf e d h
  | start | rstart | ackchk | rx | stop => simpa using h
  | _ => exact h

/-- A reset leaves all of the environment but the bus, once the request is heard. -/
@[simp] theorem Env.afterReset_target (st : SeqState) : (e.afterReset st).target = e.target := rfl
@[simp] theorem Env.afterReset_attached (st : SeqState) : (e.afterReset st).attached = e.attached := rfl
@[simp] theorem Env.afterReset_upcoming (st : SeqState) : (e.afterReset st).upcoming = e.upcoming := rfl
@[simp] theorem Env.afterReset_edge (st : SeqState) : (e.afterReset st).edge = e.edge := rfl

/-- Without T the oracle answers, and nothing is heard. -/
theorem Env.heard_of_not_attached {f : Target → Target} {e : Env} (h : e.attached = false) : e.heard f = e := by
  obtain ⟨p, u, n, b, a, t⟩ := e
  cases h
  rfl

end Sys2Proof.Machine
end

