-- ==== Sys2Proof/Laws/State.lean ====
section
/-! SUPPORT. The record updates of Machine/Flags.lean and Machine/Ops.lean, field by field. -/

namespace Sys2Proof.Machine

variable (s : State)

/-! ### clearDone -/

@[simp] theorem State.clearDone_st : s.clearDone.st = s.st := rfl
@[simp] theorem State.clearDone_opR : s.clearDone.opR = s.opR := rfl
@[simp] theorem State.clearDone_phase : s.clearDone.phase = s.phase := rfl
@[simp] theorem State.clearDone_sent : s.clearDone.sent = s.sent := rfl
@[simp] theorem State.clearDone_idx : s.clearDone.idx = s.idx := rfl
@[simp] theorem State.clearDone_fail : s.clearDone.fail = s.fail := rfl
@[simp] theorem State.clearDone_tx0 : s.clearDone.tx0 = s.tx0 := rfl
@[simp] theorem State.clearDone_tx1 : s.clearDone.tx1 = s.tx1 := rfl
@[simp] theorem State.clearDone_tx2 : s.clearDone.tx2 = s.tx2 := rfl
@[simp] theorem State.clearDone_rd0 : s.clearDone.rd0 = s.rd0 := rfl
@[simp] theorem State.clearDone_rd1 : s.clearDone.rd1 = s.rd1 := rfl
@[simp] theorem State.clearDone_rd2 : s.clearDone.rd2 = s.rd2 := rfl
@[simp] theorem State.clearDone_status : s.clearDone.status = s.status := rfl
@[simp] theorem State.clearDone_done : s.clearDone.done = false := rfl
@[simp] theorem State.clearDone_cxSampled : s.clearDone.cxSampled = s.cxSampled := rfl
@[simp] theorem State.clearDone_env : s.clearDone.env = s.env := rfl

/-! ### holdEdge -/

@[simp] theorem State.holdEdge_st : s.holdEdge.st = s.st := rfl
@[simp] theorem State.holdEdge_opR : s.holdEdge.opR = s.opR := rfl
@[simp] theorem State.holdEdge_phase : s.holdEdge.phase = s.phase := rfl
@[simp] theorem State.holdEdge_sent : s.holdEdge.sent = s.sent := rfl
@[simp] theorem State.holdEdge_idx : s.holdEdge.idx = s.idx := rfl
@[simp] theorem State.holdEdge_fail : s.holdEdge.fail = s.fail := rfl
@[simp] theorem State.holdEdge_tx0 : s.holdEdge.tx0 = s.tx0 := rfl
@[simp] theorem State.holdEdge_tx1 : s.holdEdge.tx1 = s.tx1 := rfl
@[simp] theorem State.holdEdge_tx2 : s.holdEdge.tx2 = s.tx2 := rfl
@[simp] theorem State.holdEdge_rd0 : s.holdEdge.rd0 = s.rd0 := rfl
@[simp] theorem State.holdEdge_rd1 : s.holdEdge.rd1 = s.rd1 := rfl
@[simp] theorem State.holdEdge_rd2 : s.holdEdge.rd2 = s.rd2 := rfl
@[simp] theorem State.holdEdge_status : s.holdEdge.status = s.status := rfl
@[simp] theorem State.holdEdge_done : s.holdEdge.done = false := rfl
@[simp] theorem State.holdEdge_cxSampled : s.holdEdge.cxSampled = s.cxSampled := rfl
@[simp] theorem State.holdEdge_env : s.holdEdge.env = s.env := rfl

/-! ### recoverEdge -/

@[simp] theorem State.recoverEdge_st : s.recoverEdge.st = .idle := rfl
@[simp] theorem State.recoverEdge_opR : s.recoverEdge.opR = s.opR := rfl
@[simp] theorem State.recoverEdge_phase : s.recoverEdge.phase = s.phase := rfl
@[simp] theorem State.recoverEdge_sent : s.recoverEdge.sent = s.sent := rfl
@[simp] theorem State.recoverEdge_idx : s.recoverEdge.idx = s.idx := rfl
@[simp] theorem State.recoverEdge_fail : s.recoverEdge.fail = s.fail := rfl
@[simp] theorem State.recoverEdge_tx0 : s.recoverEdge.tx0 = s.tx0 := rfl
@[simp] theorem State.recoverEdge_tx1 : s.recoverEdge.tx1 = s.tx1 := rfl
@[simp] theorem State.recoverEdge_tx2 : s.recoverEdge.tx2 = s.tx2 := rfl
@[simp] theorem State.recoverEdge_rd0 : s.recoverEdge.rd0 = s.rd0 := rfl
@[simp] theorem State.recoverEdge_rd1 : s.recoverEdge.rd1 = s.rd1 := rfl
@[simp] theorem State.recoverEdge_rd2 : s.recoverEdge.rd2 = s.rd2 := rfl
@[simp] theorem State.recoverEdge_status : s.recoverEdge.status = s.status := rfl
@[simp] theorem State.recoverEdge_done : s.recoverEdge.done = false := rfl
@[simp] theorem State.recoverEdge_cxSampled : s.recoverEdge.cxSampled = s.cxSampled := rfl
@[simp] theorem State.recoverEdge_env : s.recoverEdge.env = s.env := rfl

/-! ### completeWith -/

@[simp] theorem State.completeWith_st (c : Status) : (s.completeWith c).st = s.st := rfl
@[simp] theorem State.completeWith_opR (c : Status) : (s.completeWith c).opR = s.opR := rfl
@[simp] theorem State.completeWith_phase (c : Status) : (s.completeWith c).phase = s.phase := rfl
@[simp] theorem State.completeWith_sent (c : Status) : (s.completeWith c).sent = s.sent := rfl
@[simp] theorem State.completeWith_idx (c : Status) : (s.completeWith c).idx = s.idx := rfl
@[simp] theorem State.completeWith_fail (c : Status) : (s.completeWith c).fail = s.fail := rfl
@[simp] theorem State.completeWith_tx0 (c : Status) : (s.completeWith c).tx0 = s.tx0 := rfl
@[simp] theorem State.completeWith_tx1 (c : Status) : (s.completeWith c).tx1 = s.tx1 := rfl
@[simp] theorem State.completeWith_tx2 (c : Status) : (s.completeWith c).tx2 = s.tx2 := rfl
@[simp] theorem State.completeWith_rd0 (c : Status) : (s.completeWith c).rd0 = s.rd0 := rfl
@[simp] theorem State.completeWith_rd1 (c : Status) : (s.completeWith c).rd1 = s.rd1 := rfl
@[simp] theorem State.completeWith_rd2 (c : Status) : (s.completeWith c).rd2 = s.rd2 := rfl
@[simp] theorem State.completeWith_status (c : Status) : (s.completeWith c).status = c := rfl
@[simp] theorem State.completeWith_done (c : Status) : (s.completeWith c).done = true := rfl
@[simp] theorem State.completeWith_cxSampled (c : Status) : (s.completeWith c).cxSampled = s.cxSampled := rfl
@[simp] theorem State.completeWith_env (c : Status) : (s.completeWith c).env = s.env := rfl

/-! ### acceptContext -/

@[simp] theorem State.acceptContext_st (op : Op) : (s.acceptContext op).st = s.st := rfl
@[simp] theorem State.acceptContext_opR (op : Op) : (s.acceptContext op).opR = op := rfl
@[simp] theorem State.acceptContext_phase (op : Op) : (s.acceptContext op).phase = false := rfl
@[simp] theorem State.acceptContext_sent (op : Op) : (s.acceptContext op).sent = .noByte := rfl
@[simp] theorem State.acceptContext_idx (op : Op) : (s.acceptContext op).idx = 0 := rfl
@[simp] theorem State.acceptContext_fail (op : Op) : (s.acceptContext op).fail = false := rfl
@[simp] theorem State.acceptContext_tx0 (op : Op) : (s.acceptContext op).tx0 = s.tx0 := rfl
@[simp] theorem State.acceptContext_tx1 (op : Op) : (s.acceptContext op).tx1 = s.tx1 := rfl
@[simp] theorem State.acceptContext_tx2 (op : Op) : (s.acceptContext op).tx2 = s.tx2 := rfl
@[simp] theorem State.acceptContext_rd0 (op : Op) : (s.acceptContext op).rd0 = s.rd0 := rfl
@[simp] theorem State.acceptContext_rd1 (op : Op) : (s.acceptContext op).rd1 = s.rd1 := rfl
@[simp] theorem State.acceptContext_rd2 (op : Op) : (s.acceptContext op).rd2 = s.rd2 := rfl
@[simp] theorem State.acceptContext_status (op : Op) : (s.acceptContext op).status = s.status := rfl
@[simp] theorem State.acceptContext_done (op : Op) : (s.acceptContext op).done = s.done := rfl
@[simp] theorem State.acceptContext_cxSampled (op : Op) : (s.acceptContext op).cxSampled = s.cxSampled := rfl
@[simp] theorem State.acceptContext_env (op : Op) : (s.acceptContext op).env = s.env := rfl

/-! ### enterFailure -/

@[simp] theorem State.enterFailure_st : s.enterFailure.st = .stop := rfl
@[simp] theorem State.enterFailure_opR : s.enterFailure.opR = s.opR := rfl
@[simp] theorem State.enterFailure_phase : s.enterFailure.phase = s.phase := rfl
@[simp] theorem State.enterFailure_sent : s.enterFailure.sent = s.sent := rfl
@[simp] theorem State.enterFailure_idx : s.enterFailure.idx = s.idx := rfl
@[simp] theorem State.enterFailure_fail : s.enterFailure.fail = true := rfl
@[simp] theorem State.enterFailure_tx0 : s.enterFailure.tx0 = s.tx0 := rfl
@[simp] theorem State.enterFailure_tx1 : s.enterFailure.tx1 = s.tx1 := rfl
@[simp] theorem State.enterFailure_tx2 : s.enterFailure.tx2 = s.tx2 := rfl
@[simp] theorem State.enterFailure_rd0 : s.enterFailure.rd0 = s.rd0 := rfl
@[simp] theorem State.enterFailure_rd1 : s.enterFailure.rd1 = s.rd1 := rfl
@[simp] theorem State.enterFailure_rd2 : s.enterFailure.rd2 = s.rd2 := rfl
@[simp] theorem State.enterFailure_status : s.enterFailure.status = s.status := rfl
@[simp] theorem State.enterFailure_done : s.enterFailure.done = s.done := rfl
@[simp] theorem State.enterFailure_cxSampled : s.enterFailure.cxSampled = s.cxSampled := rfl
@[simp] theorem State.enterFailure_env : s.enterFailure.env = s.env := rfl

/-! ### returnFromTransaction -/

@[simp] theorem State.returnFromTransaction_st : s.returnFromTransaction.st = .idle := rfl
@[simp] theorem State.returnFromTransaction_opR : s.returnFromTransaction.opR = s.opR := rfl
@[simp] theorem State.returnFromTransaction_phase : s.returnFromTransaction.phase = s.phase := rfl
@[simp] theorem State.returnFromTransaction_sent : s.returnFromTransaction.sent = s.sent := rfl
@[simp] theorem State.returnFromTransaction_idx : s.returnFromTransaction.idx = s.idx := rfl
@[simp] theorem State.returnFromTransaction_fail : s.returnFromTransaction.fail = s.fail := rfl
@[simp] theorem State.returnFromTransaction_tx0 : s.returnFromTransaction.tx0 = s.tx0 := rfl
@[simp] theorem State.returnFromTransaction_tx1 : s.returnFromTransaction.tx1 = s.tx1 := rfl
@[simp] theorem State.returnFromTransaction_tx2 : s.returnFromTransaction.tx2 = s.tx2 := rfl
@[simp] theorem State.returnFromTransaction_rd0 : s.returnFromTransaction.rd0 = s.rd0 := rfl
@[simp] theorem State.returnFromTransaction_rd1 : s.returnFromTransaction.rd1 = s.rd1 := rfl
@[simp] theorem State.returnFromTransaction_rd2 : s.returnFromTransaction.rd2 = s.rd2 := rfl
@[simp] theorem State.returnFromTransaction_status : s.returnFromTransaction.status = completionStatus s.fail := rfl
@[simp] theorem State.returnFromTransaction_done : s.returnFromTransaction.done = true := rfl
@[simp] theorem State.returnFromTransaction_cxSampled : s.returnFromTransaction.cxSampled = s.cxSampled := rfl
@[simp] theorem State.returnFromTransaction_env : s.returnFromTransaction.env = s.env := rfl

/-! ### showCodec -/

@[simp] theorem State.showCodec_st (i : Instr) : (s.showCodec i).st = s.st := rfl
@[simp] theorem State.showCodec_opR (i : Instr) : (s.showCodec i).opR = s.opR := rfl
@[simp] theorem State.showCodec_phase (i : Instr) : (s.showCodec i).phase = s.phase := rfl
@[simp] theorem State.showCodec_sent (i : Instr) : (s.showCodec i).sent = s.sent := rfl
@[simp] theorem State.showCodec_idx (i : Instr) : (s.showCodec i).idx = s.idx := rfl
@[simp] theorem State.showCodec_fail (i : Instr) : (s.showCodec i).fail = s.fail := rfl
@[simp] theorem State.showCodec_tx0 (i : Instr) : (s.showCodec i).tx0 = s.tx0 := rfl
@[simp] theorem State.showCodec_tx1 (i : Instr) : (s.showCodec i).tx1 = s.tx1 := rfl
@[simp] theorem State.showCodec_tx2 (i : Instr) : (s.showCodec i).tx2 = s.tx2 := rfl
@[simp] theorem State.showCodec_rd0 (i : Instr) : (s.showCodec i).rd0 = s.rd0 := rfl
@[simp] theorem State.showCodec_rd1 (i : Instr) : (s.showCodec i).rd1 = s.rd1 := rfl
@[simp] theorem State.showCodec_rd2 (i : Instr) : (s.showCodec i).rd2 = s.rd2 := rfl
@[simp] theorem State.showCodec_status (i : Instr) : (s.showCodec i).status = s.status := rfl
@[simp] theorem State.showCodec_done (i : Instr) : (s.showCodec i).done = s.done := rfl
@[simp] theorem State.showCodec_cxSampled (i : Instr) : (s.showCodec i).cxSampled = codecOut i := rfl
@[simp] theorem State.showCodec_env (i : Instr) : (s.showCodec i).env = s.env := rfl

/-! ### tick -/

@[simp] theorem State.tick_st : s.tick.st = s.st := rfl
@[simp] theorem State.tick_opR : s.tick.opR = s.opR := rfl
@[simp] theorem State.tick_phase : s.tick.phase = s.phase := rfl
@[simp] theorem State.tick_sent : s.tick.sent = s.sent := rfl
@[simp] theorem State.tick_idx : s.tick.idx = s.idx := rfl
@[simp] theorem State.tick_fail : s.tick.fail = s.fail := rfl
@[simp] theorem State.tick_tx0 : s.tick.tx0 = s.tx0 := rfl
@[simp] theorem State.tick_tx1 : s.tick.tx1 = s.tx1 := rfl
@[simp] theorem State.tick_tx2 : s.tick.tx2 = s.tx2 := rfl
@[simp] theorem State.tick_rd0 : s.tick.rd0 = s.rd0 := rfl
@[simp] theorem State.tick_rd1 : s.tick.rd1 = s.rd1 := rfl
@[simp] theorem State.tick_rd2 : s.tick.rd2 = s.rd2 := rfl
@[simp] theorem State.tick_status : s.tick.status = s.status := rfl
@[simp] theorem State.tick_done : s.tick.done = s.done := rfl
@[simp] theorem State.tick_cxSampled : s.tick.cxSampled = s.cxSampled := rfl
@[simp] theorem State.tick_env : s.tick.env = s.env.tick s.st := rfl

/-! ### completed -/

@[simp] theorem State.completed_st (i : Instr) : (s.completed i).st = s.st := rfl
@[simp] theorem State.completed_opR (i : Instr) : (s.completed i).opR = s.opR := rfl
@[simp] theorem State.completed_phase (i : Instr) : (s.completed i).phase = s.phase := rfl
@[simp] theorem State.completed_sent (i : Instr) : (s.completed i).sent = s.sent := rfl
@[simp] theorem State.completed_idx (i : Instr) : (s.completed i).idx = s.idx := rfl
@[simp] theorem State.completed_fail (i : Instr) : (s.completed i).fail = s.fail := rfl
@[simp] theorem State.completed_tx0 (i : Instr) : (s.completed i).tx0 = s.tx0 := rfl
@[simp] theorem State.completed_tx1 (i : Instr) : (s.completed i).tx1 = s.tx1 := rfl
@[simp] theorem State.completed_tx2 (i : Instr) : (s.completed i).tx2 = s.tx2 := rfl
@[simp] theorem State.completed_rd0 (i : Instr) : (s.completed i).rd0 = s.rd0 := rfl
@[simp] theorem State.completed_rd1 (i : Instr) : (s.completed i).rd1 = s.rd1 := rfl
@[simp] theorem State.completed_rd2 (i : Instr) : (s.completed i).rd2 = s.rd2 := rfl
@[simp] theorem State.completed_status (i : Instr) : (s.completed i).status = s.status := rfl
@[simp] theorem State.completed_done (i : Instr) : (s.completed i).done = false := rfl
@[simp] theorem State.completed_cxSampled (i : Instr) : (s.completed i).cxSampled = s.cxSampled := rfl
@[simp] theorem State.completed_env (i : Instr) : (s.completed i).env = s.env.hear i := rfl

/-! ### resetEdge -/

@[simp] theorem State.resetEdge_st : s.resetEdge.st = State.reset.st := rfl
@[simp] theorem State.resetEdge_opR : s.resetEdge.opR = State.reset.opR := rfl
@[simp] theorem State.resetEdge_phase : s.resetEdge.phase = State.reset.phase := rfl
@[simp] theorem State.resetEdge_sent : s.resetEdge.sent = State.reset.sent := rfl
@[simp] theorem State.resetEdge_idx : s.resetEdge.idx = State.reset.idx := rfl
@[simp] theorem State.resetEdge_fail : s.resetEdge.fail = State.reset.fail := rfl
@[simp] theorem State.resetEdge_tx0 : s.resetEdge.tx0 = State.reset.tx0 := rfl
@[simp] theorem State.resetEdge_tx1 : s.resetEdge.tx1 = State.reset.tx1 := rfl
@[simp] theorem State.resetEdge_tx2 : s.resetEdge.tx2 = State.reset.tx2 := rfl
@[simp] theorem State.resetEdge_rd0 : s.resetEdge.rd0 = State.reset.rd0 := rfl
@[simp] theorem State.resetEdge_rd1 : s.resetEdge.rd1 = State.reset.rd1 := rfl
@[simp] theorem State.resetEdge_rd2 : s.resetEdge.rd2 = State.reset.rd2 := rfl
@[simp] theorem State.resetEdge_status : s.resetEdge.status = State.reset.status := rfl
@[simp] theorem State.resetEdge_done : s.resetEdge.done = State.reset.done := rfl
@[simp] theorem State.resetEdge_cxSampled : s.resetEdge.cxSampled = s.cxSampled := rfl
@[simp] theorem State.resetEdge_env : s.resetEdge.env = s.resetEnv := rfl

/-! ### The environment -/

variable (e : Env)

@[simp] theorem Env.tick_pins (st : SeqState) : (e.tick st).pins = e.answered st e.supplied := rfl
@[simp] theorem Env.tick_upcoming (st : SeqState) : (e.tick st).upcoming = e.upcoming.tail := rfl
@[simp] theorem Env.tick_edge (st : SeqState) : (e.tick st).edge = e.edge + 1 := rfl
@[simp] theorem Env.tick_bus (st : SeqState) : (e.tick st).bus = e.bus := rfl
@[simp] theorem Env.tick_attached (st : SeqState) : (e.tick st).attached = e.attached := rfl
@[simp] theorem Env.tick_target (st : SeqState) : (e.tick st).target = e.target := rfl

end Sys2Proof.Machine
end

