-- ==== Sys2Proof/Laws/Ops.lean ====
section
/-! SUPPORT. What each shared operation can do, said once: acceptance, completion, the choice of an edge's action, and
the inversion of exec and step that later proofs cite instead of unfolding them. -/

namespace Sys2Proof.Machine

@[simp] theorem Result.andThen_next (s : State) (k : State → Result) :
    Result.andThen (.next s) k = k s := rfl
@[simp] theorem Result.andThen_fault (f : Fault) (k : State → Result) :
    Result.andThen (.fault f) k = .fault f := rfl
@[simp] theorem Result.andThen_refused (q : Refusal) (k : State → Result) :
    Result.andThen (.refused q) k = .refused q := rfl

theorem Result.andThen_eq_next {r : Result} {k : State → Result} {t : State} :
    Result.andThen r k = .next t ↔ ∃ a, r = .next a ∧ k a = .next t := by
  cases r <;> simp [Result.andThen]

/-- In IDLE a command is accepted (R131). -/
theorem accepting_idle {op : Op} {f : State → State} {s : State} (h : s.st = .idle) :
    accepting op f s = .next (f (s.clearDone.acceptContext op)) := by
  simp [accepting, h]

/-- In any other state it waits (R154). -/
theorem accepting_busy {op : Op} {f : State → State} {s : State} (h : s.st ≠ .idle) :
    accepting op f s = .next s := by
  simp [accepting, h]

theorem accepting_cases {op : Op} {f : State → State} {s t : State} (h : accepting op f s = .next t) :
    (s.st = .idle ∧ t = f (s.clearDone.acceptContext op)) ∨ (s.st ≠ .idle ∧ t = s) := by
  by_cases hs : s.st = .idle
  · rw [accepting_idle hs] at h; cases h; exact .inl ⟨hs, rfl⟩
  · rw [accepting_busy hs] at h; cases h; exact .inr ⟨hs, rfl⟩

/-- A requested primitive has its effect (R170). -/
theorem completing_wanted {i : Instr} {w : SeqState → Bool} {f : State → State} {s : State} (h : w s.st = true)
    (hx : s.idx ≠ 3) : completing i w f s = .next (f (s.completed i)) := by
  unfold completing
  rw [if_pos h, if_neg hx]

/-- With `idx` at its unused value the primitive completes and the block recovers (I5). -/
theorem completing_unused {i : Instr} {w : SeqState → Bool} {f : State → State} {s : State} (h : w s.st = true)
    (hx : s.idx = 3) : completing i w f s = .next { s.completed i with st := .idle } := by
  unfold completing
  rw [if_pos h, if_pos hx]

/-- Another request than this primitive stops the machine (R182). -/
theorem completing_unrequested {i : Instr} {w : SeqState → Bool} {f : State → State} {s : State}
    (h : w s.st = false) (hr : s.st.requests = true) : completing i w f s = .fault .unrequestedPrimitive := by
  simp [completing, h, hr]

/-- Everything `completing` can do that is no stop. -/
theorem completing_cases {i : Instr} {w : SeqState → Bool} {f : State → State} {s t : State}
    (h : completing i w f s = .next t) :
    (w s.st = true ∧ s.idx = 3 ∧ t = { s.completed i with st := .idle }) ∨
    (w s.st = true ∧ s.idx ≠ 3 ∧ t = f (s.completed i)) ∨
    (w s.st = false ∧ s.st.requests = false ∧ s.st = .idle ∧ t = s.holdEdge) ∨
    (w s.st = false ∧ s.st.requests = false ∧ s.st ≠ .idle ∧ t = s.recoverEdge) := by
  by_cases hw : w s.st = true
  · by_cases hx : s.idx = 3
    · rw [completing_unused hw hx] at h; cases h; exact .inl ⟨hw, hx, rfl⟩
    · rw [completing_wanted hw hx] at h; cases h; exact .inr (.inl ⟨hw, hx, rfl⟩)
  · unfold completing at h
    rw [if_neg hw] at h
    by_cases hr : s.st.requests = true
    · rw [if_pos hr] at h; cases h
    · rw [if_neg hr] at h
      by_cases hi : s.st = .idle
      · rw [if_pos hi] at h; cases h
        exact .inr (.inr (.inl ⟨by simpa using hw, by simpa using hr, hi, rfl⟩))
      · rw [if_neg hi] at h; cases h
        exact .inr (.inr (.inr ⟨by simpa using hw, by simpa using hr, hi, rfl⟩))

/-! ### The meanings over the shared operations -/

theorem exec_init (u : BitVec 17) (s : State) :
    exec (.init u) s = accepting .init (fun a => { a with tx0 := 0x00, st := .start }) s := rfl
theorem exec_write (h : BitVec 5) (m v : BitVec 6) (s : State) :
    exec (.write h m v) s = accepting .write
      (fun a => { a with tx0 := encSec v, tx1 := encMin m, tx2 := encHour h, st := .start }) s := rfl
theorem exec_read (u : BitVec 17) (s : State) :
    exec (.read u) s = accepting .read (fun a => { a with st := .start }) s := rfl
theorem exec_reservedCmd (u : BitVec 17) (s : State) :
    exec (.reservedCmd u) s = accepting .reserved (fun a => a.completeWith .badCmd) s := rfl
theorem exec_start (s : State) :
    exec .start s = completing .start (· == .start) (fun a => { a with st := .addr }) s := rfl
theorem exec_rstart (s : State) :
    exec .rstart s = completing .rstart (· == .rstart) (fun a => { a with phase := true, st := .addr }) s := rfl
theorem exec_tx (d : Byte) (s : State) :
    exec (.tx d) s = completing (.tx d) SeqState.sends (fun a => { a with sent := a.sentByte, st := .ackw }) s := rfl
theorem exec_ackchk (s : State) : exec .ackchk s = completing .ackchk (· == .ackw) State.checkAck s := rfl
theorem exec_rx (s : State) :
    exec .rx s = completing .rx (· == .din)
      (fun a => { a.receive a.env.pins.pRdata with st := if a.idx = 2 then .mnack else .mack }) s := rfl
theorem exec_mack (s : State) :
    exec .mack s = completing .mack (· == .mack) (fun a => { a with idx := a.idx + 1, st := .din }) s := rfl
theorem exec_mnack (s : State) :
    exec .mnack s = completing .mnack (· == .mnack) (fun a => { a with st := .stop }) s := rfl
theorem exec_stop (s : State) :
    exec .stop s = completing .stop (· == .stop) State.returnFromTransaction s := rfl

/-- A codec word decodes to a codec function, the one its bits 10:8 name (R88). -/
theorem decodeCodec_cases (w : Nat) :
    (w / 2 ^ 8 % 8 = 0 ∧ decodeCodec w = .decSec (field 0 8 w)) ∨
    (w / 2 ^ 8 % 8 = 1 ∧ decodeCodec w = .decMin (field 0 8 w)) ∨
    (w / 2 ^ 8 % 8 = 2 ∧ decodeCodec w = .decHour (field 0 8 w)) ∨
    (w / 2 ^ 8 % 8 = 3 ∧ decodeCodec w = .codecReserved011 (field 0 8 w)) ∨
    (w / 2 ^ 8 % 8 = 4 ∧ decodeCodec w = .encSec (field 6 2 w) (field 0 6 w)) ∨
    (w / 2 ^ 8 % 8 = 5 ∧ decodeCodec w = .encMin (field 6 2 w) (field 0 6 w)) ∨
    (w / 2 ^ 8 % 8 = 6 ∧ decodeCodec w = .encHour (field 5 3 w) (field 0 5 w)) ∨
    (w / 2 ^ 8 % 8 = 7 ∧ decodeCodec w = .codecReserved111 (field 0 8 w)) := by
  unfold decodeCodec
  have h : w / 2 ^ 8 % 8 < 8 := Nat.mod_lt _ (by decide)
  generalize w / 2 ^ 8 % 8 = k at h ⊢
  interval_cases k <;> simp

/-- A command word decodes to a command, the one its bits 18:17 name (R81). -/
theorem decodeCmd_cases (w : Nat) :
    (w / 2 ^ 17 % 4 = 0 ∧ decodeCmd w = .init (field 0 17 w)) ∨
    (w / 2 ^ 17 % 4 = 1 ∧ decodeCmd w = .write (field 12 5 w) (field 6 6 w) (field 0 6 w)) ∨
    (w / 2 ^ 17 % 4 = 2 ∧ decodeCmd w = .read (field 0 17 w)) ∨
    (w / 2 ^ 17 % 4 = 3 ∧ decodeCmd w = .reservedCmd (field 0 17 w)) := by
  unfold decodeCmd
  have h : w / 2 ^ 17 % 4 < 4 := Nat.mod_lt _ (by decide)
  generalize w / 2 ^ 17 % 4 = k at h ⊢
  interval_cases k <;> simp

/-- A primitive word decodes to a primitive, the one its bits 10:8 name (R85). -/
theorem decodePrim_cases (w : Nat) :
    (w / 2 ^ 8 % 8 = 0 ∧ decodePrim w = .start) ∨ (w / 2 ^ 8 % 8 = 1 ∧ decodePrim w = .rstart) ∨
    (w / 2 ^ 8 % 8 = 2 ∧ decodePrim w = .tx (field 0 8 w)) ∨ (w / 2 ^ 8 % 8 = 3 ∧ decodePrim w = .ackchk) ∨
    (w / 2 ^ 8 % 8 = 4 ∧ decodePrim w = .rx) ∨ (w / 2 ^ 8 % 8 = 5 ∧ decodePrim w = .mack) ∨
    (w / 2 ^ 8 % 8 = 6 ∧ decodePrim w = .mnack) ∨ (w / 2 ^ 8 % 8 = 7 ∧ decodePrim w = .stop) := by
  unfold decodePrim
  have h : w / 2 ^ 8 % 8 < 8 := Nat.mod_lt _ (by decide)
  generalize w / 2 ^ 8 % 8 = k at h ⊢
  interval_cases k <;> simp

/-- The codec port's word is `cx_fn` times 256 plus `cx_in` (R87). -/
theorem codecWord_toNat (fn : BitVec 3) (x : Byte) : (fn ++ x).toNat = fn.toNat * 2 ^ 8 + x.toNat := by
  rw [BitVec.toNat_append, Nat.shiftLeft_eq]
  exact Nat.or_comm .. |>.trans (by rw [Nat.or_comm, Nat.mul_comm, Nat.two_pow_add_eq_or_of_lt x.isLt])

/-- The codec port is answered and changes nothing else (R100, R108). -/
theorem exec_codecRequest (s : State) (e : Env) :
    exec e.codecRequest s = .next (s.showCodec e.codecRequest) := by
  unfold Env.codecRequest
  rcases decodeCodec_cases (e.pins.cxFn ++ e.pins.cxIn).toNat with
    ⟨-, h⟩ | ⟨-, h⟩ | ⟨-, h⟩ | ⟨-, h⟩ | ⟨-, h⟩ | ⟨-, h⟩ | ⟨-, h⟩ | ⟨-, h⟩ <;> rw [h] <;> rfl

/-- Which primitive a state requests (R171). -/
theorem State.request_cases {s : State} {i : Instr} (h : s.request = some i) :
    (s.st = .start ∧ i = .start) ∨ (s.st = .rstart ∧ i = .rstart) ∨
    (s.st.sends = true ∧ i = .tx s.wdata) ∨ (s.st = .ackw ∧ i = .ackchk) ∨ (s.st = .din ∧ i = .rx) ∨
    (s.st = .mack ∧ i = .mack) ∨ (s.st = .mnack ∧ i = .mnack) ∨ (s.st = .stop ∧ i = .stop) := by
  unfold State.request at h
  cases hs : s.st <;> simp [hs] at h <;> simp [SeqState.sends, h]

theorem SeqState.sends_cases {q : SeqState} (h : q.sends = true) : q = .addr ∨ q = .regsel ∨ q = .dout := by
  cases q <;> simp [SeqState.sends] at h ⊢

theorem SeqState.requests_of_sends {q : SeqState} (h : q.sends = true) : q.requests = true := by
  rcases SeqState.sends_cases h with rfl | rfl | rfl <;> rfl

/-- A request and `p_req` are the same thing (R32, R171). -/
theorem State.request_isSome (s : State) : s.request.isSome = s.st.requests := by
  unfold State.request
  cases s.st <;> rfl

/-- What the completion of the requested primitive does: recovery where `idx` holds its unused value, and else the
transition of the state that requests it (R136 to R146). -/
theorem exec_request_eq {s : State} {i : Instr} (hq : s.request = some i) :
    exec i s = .next
      (if s.idx = 3 then { s.completed i with st := .idle }
       else match s.st with
        | .start => { s.completed i with st := .addr }
        | .rstart => { s.completed i with phase := true, st := .addr }
        | .addr | .regsel | .dout => { s.completed i with sent := s.sentByte, st := .ackw }
        | .ackw => (s.completed i).checkAck
        | .din => { (s.completed i).receive s.env.pins.pRdata with st := if s.idx = 2 then .mnack else .mack }
        | .mack => { s.completed i with idx := s.idx + 1, st := .din }
        | .mnack => { s.completed i with st := .stop }
        | .stop => (s.completed i).returnFromTransaction
        | .idle | .unusedB | .unusedC | .unusedD | .unusedE | .unusedF => s) := by
  by_cases hx : s.idx = 3
  · rcases State.request_cases hq with ⟨hs, rfl⟩ | ⟨hs, rfl⟩ | ⟨hs, rfl⟩ | ⟨hs, rfl⟩ | ⟨hs, rfl⟩ | ⟨hs, rfl⟩ |
      ⟨hs, rfl⟩ | ⟨hs, rfl⟩ <;>
      simp only [exec_start, exec_rstart, exec_tx, exec_ackchk, exec_rx, exec_mack, exec_mnack, exec_stop] <;>
      rw [completing_unused (by simp [hs]) hx, if_pos hx]
  · rw [if_neg hx]
    rcases State.request_cases hq with ⟨hs, rfl⟩ | ⟨hs, rfl⟩ | ⟨hs, rfl⟩ | ⟨hs, rfl⟩ | ⟨hs, rfl⟩ | ⟨hs, rfl⟩ |
      ⟨hs, rfl⟩ | ⟨hs, rfl⟩ <;>
      simp only [exec_start, exec_rstart, exec_tx, exec_ackchk, exec_rx, exec_mack, exec_mnack, exec_stop] <;>
      rw [completing_wanted (by simp [hs]) hx]
    case inr.inr.inl => rcases SeqState.sends_cases hs with hs | hs | hs <;> rw [hs] <;> simp [State.sentByte, hs]
    all_goals rw [hs]
    all_goals rfl

/-- A state's own request runs: it never stops the machine. -/
theorem exec_request {s : State} {i : Instr} (h : s.request = some i) : ∃ t, exec i s = .next t :=
  ⟨_, exec_request_eq h⟩

/-- A command runs in every state. -/
theorem exec_command (w : Nat) (s : State) : ∃ t, exec (decodeCmd w) s = .next t := by
  rcases decodeCmd_cases w with ⟨-, h⟩ | ⟨-, h⟩ | ⟨-, h⟩ | ⟨-, h⟩ <;> rw [h] <;>
    (simp only [exec, execInit, execWrite, execRead, execReservedCmd]
     by_cases hs : s.st = .idle
     · rw [accepting_idle hs]; exact ⟨_, rfl⟩
     · rw [accepting_busy hs]; exact ⟨_, rfl⟩)

/-- Showing the codec's answer changes neither the request nor the edge's action. -/
@[simp] theorem State.showCodec_request (i : Instr) (s : State) : (s.showCodec i).request = s.request := rfl
@[simp] theorem State.showCodec_edgeAction (i : Instr) (s : State) : (s.showCodec i).edgeAction = s.edgeAction := rfl

/-- What makes an edge each of its actions (R130). -/
theorem State.edgeAction_cases (s : State) :
    (s.env.pins.rst = true ∧ s.edgeAction = .reset) ∨
    (s.env.pins.rst = false ∧ s.st = .idle ∧ s.env.pins.cmdValid = true ∧
      s.edgeAction = .run (decodeCmd s.env.pins.cmdWord.toNat)) ∨
    (s.env.pins.rst = false ∧ s.st = .idle ∧ s.env.pins.cmdValid = false ∧ s.edgeAction = .hold) ∨
    (s.env.pins.rst = false ∧ s.st ≠ .idle ∧ s.request = none ∧ s.edgeAction = .recover) ∨
    (∃ i, s.env.pins.rst = false ∧ s.st ≠ .idle ∧ s.request = some i ∧ s.env.pins.pDone = true ∧
      s.edgeAction = .run i) ∨
    (s.env.pins.rst = false ∧ s.st ≠ .idle ∧ s.request.isSome = true ∧ s.env.pins.pDone = false ∧ s.idx = 3 ∧
      s.edgeAction = .recover) ∨
    (s.env.pins.rst = false ∧ s.st ≠ .idle ∧ s.request.isSome = true ∧ s.env.pins.pDone = false ∧ s.idx ≠ 3 ∧
      s.edgeAction = .hold) := by
  unfold State.edgeAction
  by_cases hr : s.env.pins.rst = true
  · exact .inl ⟨hr, if_pos hr⟩
  · rw [if_neg hr]
    rw [Bool.not_eq_true] at hr
    by_cases hi : s.st = .idle
    · cases hv : s.env.pins.cmdValid <;> simp [hi, hr]
    · cases hq : s.request with
      | none => simp [hi, hr]
      | some i => cases hd : s.env.pins.pDone <;> by_cases hx : s.idx = 3#2 <;> simp [hi, hr, hx]

/-- The step with the codec port's answer written out. -/
theorem step_eq (s : State) :
    step s =
      match s.edgeAction with
      | .reset => .next (s.showCodec s.env.codecRequest).resetEdge.tick
      | .run i => Result.andThen (exec i (s.showCodec s.env.codecRequest)) fun b => .next b.tick
      | .recover => .next (s.showCodec s.env.codecRequest).recoverEdge.tick
      | .hold => .next (s.showCodec s.env.codecRequest).holdEdge.tick := by
  unfold step
  rw [exec_codecRequest]
  rfl

/-- A state with a request is not IDLE. -/
theorem State.ne_idle_of_request {s : State} {i : Instr} (hq : s.request = some i) : s.st ≠ .idle := by
  intro h
  simp [State.request, h] at hq

/-- Forward: an edge that accepts a command (R131). -/
theorem step_command {s : State} (hr : s.env.pins.rst = false) (hs : s.st = .idle)
    (hv : s.env.pins.cmdValid = true) :
    step s = Result.andThen (exec (decodeCmd s.env.pins.cmdWord.toNat) (s.showCodec s.env.codecRequest))
      fun b => .next b.tick := by
  rw [step_eq]
  simp [State.edgeAction, hr, hs, hv]

/-- Forward: an edge that completes the request (R170). -/
theorem step_request {s : State} {i : Instr} (hq : s.request = some i) (hr : s.env.pins.rst = false)
    (hd : s.env.pins.pDone = true) :
    step s = Result.andThen (exec i (s.showCodec s.env.codecRequest)) fun b => .next b.tick := by
  rw [step_eq]
  simp [State.edgeAction, hr, hd, hq, State.ne_idle_of_request hq]

/-- Forward: an edge that waits (R140). -/
theorem step_hold {s : State} {i : Instr} (hq : s.request = some i) (hr : s.env.pins.rst = false)
    (hd : s.env.pins.pDone = false) (hx : s.idx ≠ 3) :
    step s = .next (s.showCodec s.env.codecRequest).holdEdge.tick := by
  have hx' : ¬s.idx = 3#2 := hx
  rw [step_eq]
  simp [State.edgeAction, hr, hd, hq, hx', State.ne_idle_of_request hq]

/-- Forward: an edge that recovers while the request waits (I5). -/
theorem step_recover_waiting {s : State} {i : Instr} (hq : s.request = some i) (hr : s.env.pins.rst = false)
    (hd : s.env.pins.pDone = false) (hx : s.idx = 3) :
    step s = .next (s.showCodec s.env.codecRequest).recoverEdge.tick := by
  rw [step_eq]
  simp [State.edgeAction, hr, hd, hq, hx, State.ne_idle_of_request hq]

/-- Forward: an unused encoding of `st` recovers (R39). -/
theorem step_recover {s : State} (hs : s.st ≠ .idle) (hq : s.request = none) (hr : s.env.pins.rst = false) :
    step s = .next (s.showCodec s.env.codecRequest).recoverEdge.tick := by
  rw [step_eq]
  simp [State.edgeAction, hr, hq, hs]

/-- Forward: IDLE without a command (R141). -/
theorem step_idle {s : State} (hs : s.st = .idle) (hr : s.env.pins.rst = false)
    (hv : s.env.pins.cmdValid = false) :
    step s = .next (s.showCodec s.env.codecRequest).holdEdge.tick := by
  rw [step_eq]
  simp [State.edgeAction, hr, hs, hv]

/-- Forward: an edge with `rst = 1` (R230). -/
theorem step_reset {s : State} (hr : s.env.pins.rst = true) :
    step s = .next (s.showCodec s.env.codecRequest).resetEdge.tick := by
  rw [step_eq]
  simp [State.edgeAction, hr]

/-- Everything a step can do: reset, acceptance of a command in IDLE, completion of the requested primitive, recovery of an
unused encoding, or a hold. -/
theorem step_cases {s t : State} (h : step s = .next t) :
    (s.env.pins.rst = true ∧ t = (s.showCodec s.env.codecRequest).resetEdge.tick) ∨
    (∃ b, s.env.pins.rst = false ∧ s.st = .idle ∧ s.env.pins.cmdValid = true ∧
      exec (decodeCmd s.env.pins.cmdWord.toNat) (s.showCodec s.env.codecRequest) = .next b ∧ t = b.tick) ∨
    (∃ i b, s.env.pins.rst = false ∧ s.st ≠ .idle ∧ s.request = some i ∧ s.env.pins.pDone = true ∧
      exec i (s.showCodec s.env.codecRequest) = .next b ∧ t = b.tick) ∨
    (s.env.pins.rst = false ∧ s.st ≠ .idle ∧
        (s.request = none ∨ (s.request.isSome = true ∧ s.env.pins.pDone = false ∧ s.idx = 3)) ∧
      t = (s.showCodec s.env.codecRequest).recoverEdge.tick) ∨
    (s.env.pins.rst = false ∧ ((s.st = .idle ∧ s.env.pins.cmdValid = false) ∨
        (s.st ≠ .idle ∧ s.request.isSome = true ∧ s.env.pins.pDone = false ∧ s.idx ≠ 3)) ∧
      t = (s.showCodec s.env.codecRequest).holdEdge.tick) := by
  rw [step_eq] at h
  rcases s.edgeAction_cases with ⟨hr, ha⟩ | ⟨hr, hi, hv, ha⟩ | ⟨hr, hi, hv, ha⟩ | ⟨hr, hi, hq, ha⟩ |
      ⟨i, hr, hi, hq, hd, ha⟩ | ⟨hr, hi, hq, hd, hx, ha⟩ | ⟨hr, hi, hq, hd, hx, ha⟩ <;> rw [ha] at h <;>
    simp only at h
  · cases h; exact .inl ⟨hr, rfl⟩
  · obtain ⟨b, hb, hk⟩ := Result.andThen_eq_next.1 h
    cases hk; exact .inr (.inl ⟨b, hr, hi, hv, hb, rfl⟩)
  · cases h; exact .inr (.inr (.inr (.inr ⟨hr, .inl ⟨hi, hv⟩, rfl⟩)))
  · cases h; exact .inr (.inr (.inr (.inl ⟨hr, hi, .inl hq, rfl⟩)))
  · obtain ⟨b, hb, hk⟩ := Result.andThen_eq_next.1 h
    cases hk; exact .inr (.inr (.inl ⟨i, b, hr, hi, hq, hd, hb, rfl⟩))
  · cases h; exact .inr (.inr (.inr (.inl ⟨hr, hi, .inr ⟨hq, hd, hx⟩, rfl⟩)))
  · cases h; exact .inr (.inr (.inr (.inr ⟨hr, .inr ⟨hi, hq, hd, hx⟩, rfl⟩)))

/-- What an accepted command makes of the state (R131 to R135). -/
theorem exec_command_idle {w : Nat} {s t : State} (hs : s.st = .idle) (h : exec (decodeCmd w) s = .next t) :
    (∃ u, decodeCmd w = .init u ∧ w / 2 ^ 17 % 4 = 0 ∧
      t = { s.clearDone.acceptContext .init with tx0 := 0x00, st := .start }) ∨
    (∃ hr m v, decodeCmd w = .write hr m v ∧ w / 2 ^ 17 % 4 = 1 ∧
      t = { s.clearDone.acceptContext .write with
            tx0 := encSec v, tx1 := encMin m, tx2 := encHour hr, st := .start }) ∨
    (∃ u, decodeCmd w = .read u ∧ w / 2 ^ 17 % 4 = 2 ∧
      t = { s.clearDone.acceptContext .read with st := .start }) ∨
    (∃ u, decodeCmd w = .reservedCmd u ∧ w / 2 ^ 17 % 4 = 3 ∧
      t = (s.clearDone.acceptContext .reserved).completeWith .badCmd) := by
  rcases decodeCmd_cases w with ⟨ho, hd⟩ | ⟨ho, hd⟩ | ⟨ho, hd⟩ | ⟨ho, hd⟩ <;> rw [hd] at h ⊢
  · simp only [exec, execInit] at h
    rw [accepting_idle hs] at h; cases h
    exact .inl ⟨_, rfl, ho, rfl⟩
  · simp only [exec, execWrite] at h
    rw [accepting_idle hs] at h; cases h
    exact .inr (.inl ⟨_, _, _, rfl, ho, rfl⟩)
  · simp only [exec, execRead] at h
    rw [accepting_idle hs] at h; cases h
    exact .inr (.inr (.inl ⟨_, rfl, ho, rfl⟩))
  · simp only [exec, execReservedCmd] at h
    rw [accepting_idle hs] at h; cases h
    exact .inr (.inr (.inr ⟨_, rfl, ho, rfl⟩))

/-- What the completion of the requested primitive makes of the state (R136 to R146, I5). -/
theorem exec_request_cases {s t : State} {i : Instr} (hq : s.request = some i) (h : exec i s = .next t) :
    (s.idx = 3 ∧ t = { s.completed i with st := .idle }) ∨
    (s.idx ≠ 3 ∧
      ((s.st = .start ∧ i = .start ∧ t = { s.completed .start with st := .addr }) ∨
       (s.st = .rstart ∧ i = .rstart ∧ t = { s.completed .rstart with phase := true, st := .addr }) ∨
       (s.st.sends = true ∧ i = .tx s.wdata ∧
        t = { s.completed (.tx s.wdata) with sent := s.sentByte, st := .ackw }) ∨
       (s.st = .ackw ∧ i = .ackchk ∧ t = (s.completed .ackchk).checkAck) ∨
       (s.st = .din ∧ i = .rx ∧
        t = { (s.completed .rx).receive s.env.pins.pRdata with st := if s.idx = 2 then .mnack else .mack }) ∨
       (s.st = .mack ∧ i = .mack ∧ t = { s.completed .mack with idx := s.idx + 1, st := .din }) ∨
       (s.st = .mnack ∧ i = .mnack ∧ t = { s.completed .mnack with st := .stop }) ∨
       (s.st = .stop ∧ i = .stop ∧ t = (s.completed .stop).returnFromTransaction))) := by
  rw [exec_request_eq hq] at h
  by_cases hx : s.idx = 3
  · rw [if_pos hx] at h; cases h; exact .inl ⟨hx, rfl⟩
  · rw [if_neg hx] at h
    refine .inr ⟨hx, ?_⟩
    rcases State.request_cases hq with ⟨hs, rfl⟩ | ⟨hs, rfl⟩ | ⟨hs, rfl⟩ | ⟨hs, rfl⟩ | ⟨hs, rfl⟩ | ⟨hs, rfl⟩ |
      ⟨hs, rfl⟩ | ⟨hs, rfl⟩
    case inr.inr.inl =>
      rcases SeqState.sends_cases hs with hs' | hs' | hs' <;> rw [hs'] at h <;> cases h <;>
        exact .inr (.inr (.inl ⟨hs, rfl, rfl⟩))
    all_goals rw [hs] at h; cases h; simp [hs]

/-- ACKW writes `st`, `idx` and `fail` alone (R139). -/
theorem State.checkAck_cases (s : State) :
    (s.env.pins.pAck = false ∧ s.checkAck = { s with fail := true, st := .stop }) ∨
    (s.env.pins.pAck = true ∧ s.checkAck = s.acknowledged) := by
  unfold State.checkAck
  cases s.env.pins.pAck
  · exact .inl ⟨rfl, rfl⟩
  · exact .inr ⟨rfl, rfl⟩

/-- An acknowledged byte writes `st` and `idx` alone (R139). -/
theorem State.acknowledged_eq (s : State) :
    s.acknowledged = { s with st := s.acknowledged.st, idx := s.acknowledged.idx } := by
  unfold State.acknowledged
  cases s.sent with
  | noByte => rfl
  | addr => cases s.phase <;> rfl
  | reg => dsimp only; split <;> rfl
  | data => dsimp only; split <;> rfl

/-- ACKW writes `st`, `idx` and `fail` alone (R139). -/
theorem State.checkAck_eq (s : State) :
    s.checkAck = { s with st := s.checkAck.st, idx := s.checkAck.idx, fail := s.fail || !s.env.pins.pAck } := by
  unfold State.checkAck
  cases h : s.env.pins.pAck
  · simp [State.enterFailure]
  · simp only [if_true, Bool.not_true, Bool.or_false]
    rw [s.acknowledged_eq]

theorem State.acknowledged_cases (s : State) :
    (s.sent = .addr ∧ s.phase = true ∧ s.acknowledged = { s with st := .din }) ∨
    (s.sent = .addr ∧ s.phase = false ∧ s.acknowledged = { s with st := .regsel }) ∨
    (s.sent = .reg ∧ s.opR = .read ∧ s.acknowledged = { s with st := .rstart }) ∨
    (s.sent = .reg ∧ s.opR ≠ .read ∧ s.acknowledged = { s with st := .dout }) ∨
    (s.sent = .data ∧ (s.opR = .init ∨ s.idx = 2) ∧ s.acknowledged = { s with st := .stop }) ∨
    (s.sent = .data ∧ ¬(s.opR = .init ∨ s.idx = 2) ∧ s.acknowledged = { s with idx := s.idx + 1, st := .dout }) ∨
    (s.sent = .noByte ∧ s.acknowledged = { s with st := .stop }) := by
  unfold State.acknowledged
  cases hs : s.sent with
  | noByte => simp
  | addr => cases hp : s.phase <;> simp
  | reg => by_cases ho : s.opR = .read <;> simp [ho]
  | data =>
    by_cases ho : s.opR = .init ∨ s.idx = 2
    · exact .inr (.inr (.inr (.inr (.inl ⟨rfl, ho, if_pos ho⟩))))
    · exact .inr (.inr (.inr (.inr (.inr (.inl ⟨rfl, ho, if_neg ho⟩)))))

/-- DIN writes one of `rd[0..2]`, and none where `idx = 3` (R143). -/
theorem State.receive_cases (b : Byte) (s : State) :
    (s.idx = 0 ∧ s.receive b = { s with rd0 := decSec b }) ∨ (s.idx = 1 ∧ s.receive b = { s with rd1 := decMin b }) ∨
    (s.idx = 2 ∧ s.receive b = { s with rd2 := decHour b }) ∨ (s.idx = 3 ∧ s.receive b = s) := by
  have h : s.idx = 0 ∨ s.idx = 1 ∨ s.idx = 2 ∨ s.idx = 3 := by
    generalize s.idx = x
    revert x; decide
  rcases h with h | h | h | h
  · exact .inl ⟨h, by simp [State.receive, h]⟩
  · exact .inr (.inl ⟨h, by simp [State.receive, h]⟩)
  · exact .inr (.inr (.inl ⟨h, by simp [State.receive, h]⟩))
  · refine .inr (.inr (.inr ⟨h, ?_⟩))
    obtain ⟨_, _, _, _, x, _, _, _, _, _, _, _, _, _, _, _⟩ := s
    cases h
    rfl

/-- The edges of a run, each with its next state written out: what every proof over a step starts from. -/
inductive Edge (s : State) : State → Prop where
  | reset (h : s.env.pins.rst = true) : Edge s (s.showCodec s.env.codecRequest).resetEdge.tick
  | hold (h : s.env.pins.rst = false)
      (hw : (s.st = .idle ∧ s.env.pins.cmdValid = false) ∨ (s.st.requests = true ∧ s.env.pins.pDone = false ∧ s.idx ≠ 3)) :
      Edge s (s.showCodec s.env.codecRequest).holdEdge.tick
  | recover (h : s.env.pins.rst = false) (hi : s.st ≠ .idle)
      (hq : s.st.requests = false ∨ (s.st.requests = true ∧ s.env.pins.pDone = false ∧ s.idx = 3)) :
      Edge s (s.showCodec s.env.codecRequest).recoverEdge.tick
  | recoverCompleted (i : Instr) (h : s.env.pins.rst = false) (hq : s.request = some i)
      (hd : s.env.pins.pDone = true) (hx : s.idx = 3) :
      Edge s (State.tick { (s.showCodec s.env.codecRequest).completed i with st := .idle })
  | init (u : BitVec 17) (h : s.env.pins.rst = false) (hs : s.st = .idle) (hv : s.env.pins.cmdValid = true)
      (hd : decodeCmd s.env.pins.cmdWord.toNat = .init u)
      (ho : s.env.pins.cmdWord.toNat / 2 ^ 17 % 4 = 0) :
      Edge s (State.tick { ((s.showCodec s.env.codecRequest).clearDone.acceptContext .init) with
        tx0 := 0x00, st := .start })
  | write (hr : BitVec 5) (m v : BitVec 6) (h : s.env.pins.rst = false) (hs : s.st = .idle)
      (hv : s.env.pins.cmdValid = true) (hd : decodeCmd s.env.pins.cmdWord.toNat = .write hr m v)
      (ho : s.env.pins.cmdWord.toNat / 2 ^ 17 % 4 = 1) :
      Edge s (State.tick { ((s.showCodec s.env.codecRequest).clearDone.acceptContext .write) with
        tx0 := encSec v, tx1 := encMin m, tx2 := encHour hr, st := .start })
  | read (u : BitVec 17) (h : s.env.pins.rst = false) (hs : s.st = .idle) (hv : s.env.pins.cmdValid = true)
      (hd : decodeCmd s.env.pins.cmdWord.toNat = .read u)
      (ho : s.env.pins.cmdWord.toNat / 2 ^ 17 % 4 = 2) :
      Edge s (State.tick { ((s.showCodec s.env.codecRequest).clearDone.acceptContext .read) with st := .start })
  | reservedCmd (u : BitVec 17) (h : s.env.pins.rst = false) (hs : s.st = .idle) (hv : s.env.pins.cmdValid = true)
      (hd : decodeCmd s.env.pins.cmdWord.toNat = .reservedCmd u)
      (ho : s.env.pins.cmdWord.toNat / 2 ^ 17 % 4 = 3) :
      Edge s (State.tick (((s.showCodec s.env.codecRequest).clearDone.acceptContext .reserved).completeWith .badCmd))
  | start (h : s.env.pins.rst = false) (hd : s.env.pins.pDone = true) (hs : s.st = .start) (hx : s.idx ≠ 3) :
      Edge s (State.tick { (s.showCodec s.env.codecRequest).completed .start with st := .addr })
  | rstart (h : s.env.pins.rst = false) (hd : s.env.pins.pDone = true) (hs : s.st = .rstart) (hx : s.idx ≠ 3) :
      Edge s (State.tick { (s.showCodec s.env.codecRequest).completed .rstart with phase := true, st := .addr })
  | tx (h : s.env.pins.rst = false) (hd : s.env.pins.pDone = true) (hs : s.st.sends = true) (hx : s.idx ≠ 3) :
      Edge s (State.tick { (s.showCodec s.env.codecRequest).completed (.tx s.wdata) with
        sent := s.sentByte, st := .ackw })
  | ackchk (h : s.env.pins.rst = false) (hd : s.env.pins.pDone = true) (hs : s.st = .ackw) (hx : s.idx ≠ 3) :
      Edge s (State.tick ((s.showCodec s.env.codecRequest).completed .ackchk).checkAck)
  | rx (h : s.env.pins.rst = false) (hd : s.env.pins.pDone = true) (hs : s.st = .din) (hx : s.idx ≠ 3) :
      Edge s (State.tick { ((s.showCodec s.env.codecRequest).completed .rx).receive s.env.pins.pRdata with
        st := if s.idx = 2 then .mnack else .mack })
  | mack (h : s.env.pins.rst = false) (hd : s.env.pins.pDone = true) (hs : s.st = .mack) (hx : s.idx ≠ 3) :
      Edge s (State.tick { (s.showCodec s.env.codecRequest).completed .mack with idx := s.idx + 1, st := .din })
  | mnack (h : s.env.pins.rst = false) (hd : s.env.pins.pDone = true) (hs : s.st = .mnack) (hx : s.idx ≠ 3) :
      Edge s (State.tick { (s.showCodec s.env.codecRequest).completed .mnack with st := .stop })
  | stop (h : s.env.pins.rst = false) (hd : s.env.pins.pDone = true) (hs : s.st = .stop) (hx : s.idx ≠ 3) :
      Edge s (State.tick ((s.showCodec s.env.codecRequest).completed .stop).returnFromTransaction)

/-- The inversion of the step: a step is one of these edges, with this next state. -/
theorem step_edge {s t : State} (h : step s = .next t) : Edge s t := by
  rcases step_cases h with ⟨hr, rfl⟩ | ⟨b, hr, hs, hv, hb, rfl⟩ | ⟨i, b, hr, hs, hq, hd, hb, rfl⟩ |
      ⟨hr, hs, hq, rfl⟩ | ⟨hr, hw, rfl⟩
  · exact .reset hr
  · rcases exec_command_idle (s := s.showCodec s.env.codecRequest) hs hb with ⟨u, hc, ho, rfl⟩ |
      ⟨x, m, v, hc, ho, rfl⟩ | ⟨u, hc, ho, rfl⟩ | ⟨u, hc, ho, rfl⟩
    · exact .init u hr hs hv hc ho
    · exact .write x m v hr hs hv hc ho
    · exact .read u hr hs hv hc ho
    · exact .reservedCmd u hr hs hv hc ho
  · rcases exec_request_cases (s := s.showCodec s.env.codecRequest) hq hb with ⟨hx, rfl⟩ |
      ⟨hx, ⟨hs', rfl, rfl⟩ | ⟨hs', rfl, rfl⟩ | ⟨hs', rfl, rfl⟩ | ⟨hs', rfl, rfl⟩ | ⟨hs', rfl, rfl⟩ |
        ⟨hs', rfl, rfl⟩ | ⟨hs', rfl, rfl⟩ | ⟨hs', rfl, rfl⟩⟩
    · exact .recoverCompleted i hr hq hd hx
    · exact .start hr hd hs' hx
    · exact .rstart hr hd hs' hx
    · exact .tx hr hd hs' hx
    · exact .ackchk hr hd hs' hx
    · exact .rx hr hd hs' hx
    · exact .mack hr hd hs' hx
    · exact .mnack hr hd hs' hx
    · exact .stop hr hd hs' hx
  · refine .recover hr hs ?_
    rcases hq with hq | ⟨hq, hd, hx⟩
    · exact .inl (by rw [← s.request_isSome, hq]; rfl)
    · exact .inr ⟨by rw [← s.request_isSome]; exact hq, hd, hx⟩
  · refine .hold hr ?_
    rcases hw with hw | ⟨_, hq, hd, hx⟩
    · exact .inl hw
    · exact .inr ⟨by rw [← s.request_isSome]; exact hq, hd, hx⟩

/-- The context's legality is a matter of the context registers and `st` alone. -/
theorem State.contextOk_congr {s t : State} (h1 : t.st = s.st) (h2 : t.opR = s.opR) (h3 : t.phase = s.phase)
    (h4 : t.sent = s.sent) (h5 : t.idx = s.idx) (h6 : t.fail = s.fail) : t.contextOk = s.contextOk := by
  simp only [State.contextOk, h1, h2, h3, h4, h5, h6]

/-- The legal ranges are a matter of `rd[0..2]` and of `tx[0..2]` alone. -/
theorem State.rdLegal_congr {s t : State} (h0 : t.rd0 = s.rd0) (h1 : t.rd1 = s.rd1) (h2 : t.rd2 = s.rd2) :
    t.rdLegal = s.rdLegal := by
  simp only [State.rdLegal, h0, h1, h2]

theorem State.txLegal_congr {s t : State} (h0 : t.tx0 = s.tx0) (h1 : t.tx1 = s.tx1) (h2 : t.tx2 = s.tx2) :
    t.txLegal = s.txLegal := by
  simp only [State.txLegal, h0, h1, h2]

/-- What is left to issue is a matter of the registers alone. -/
theorem State.remaining_congr {s t : State} (h1 : t.st = s.st) (h2 : t.opR = s.opR) (h3 : t.phase = s.phase)
    (h4 : t.sent = s.sent) (h5 : t.idx = s.idx) (h6 : t.tx0 = s.tx0) (h7 : t.tx1 = s.tx1) (h8 : t.tx2 = s.tx2) :
    t.remaining = s.remaining := by
  simp only [State.remaining, State.afterSelect, State.afterAck, State.dataFrom, h1, h2, h3, h4, h5, h6, h7, h8]

end Sys2Proof.Machine
end

