-- ==== Sys2Proof/Laws/PerInstr.lean ====
section
/-! SUPPORT. Statements about every instruction as syntax, one lemma per constructor. -/

namespace Sys2Proof.Laws.EncodeWf

/-- The word of the instruction fits its port and carries no byte its primitive does not take (R84, R92). -/
def Statement (i : Instr) : Prop := (encode i).wf = true

theorem cmdWord_wf {op low : Nat} (ho : op < 4) (hl : low < 2 ^ 17) : (cmdWordOf op low).wf = true := by
  simp [cmdWordOf, PortWord.wf, PortWord.fits, PortWord.wdataLegal]
  omega

theorem codecWord_wf {op low : Nat} (ho : op < 8) (hl : low < 2 ^ 8) : (codecWordOf op low).wf = true := by
  simp [codecWordOf, PortWord.wf, PortWord.fits, PortWord.wdataLegal]
  omega

theorem txWord_wf {low : Nat} (hl : low < 2 ^ 8) : (primWordOf 2 low).wf = true := by
  simp [primWordOf, PortWord.wf, PortWord.fits, PortWord.wdataLegal]
  omega

theorem init (u : BitVec 17) : Statement (.init u) := cmdWord_wf (by decide) u.isLt
theorem read (u : BitVec 17) : Statement (.read u) := cmdWord_wf (by decide) u.isLt
theorem reservedCmd (u : BitVec 17) : Statement (.reservedCmd u) := cmdWord_wf (by decide) u.isLt
theorem write (h : BitVec 5) (m v : BitVec 6) : Statement (.write h m v) := cmdWord_wf (by decide) (by omega)
theorem decSec (b : Byte) : Statement (.decSec b) := codecWord_wf (by decide) b.isLt
theorem decMin (b : Byte) : Statement (.decMin b) := codecWord_wf (by decide) b.isLt
theorem decHour (b : Byte) : Statement (.decHour b) := codecWord_wf (by decide) b.isLt
theorem codecReserved011 (b : Byte) : Statement (.codecReserved011 b) := codecWord_wf (by decide) b.isLt
theorem codecReserved111 (b : Byte) : Statement (.codecReserved111 b) := codecWord_wf (by decide) b.isLt
theorem encSec (u : BitVec 2) (v : BitVec 6) : Statement (.encSec u v) := codecWord_wf (by decide) (by omega)
theorem encMin (u : BitVec 2) (v : BitVec 6) : Statement (.encMin u v) := codecWord_wf (by decide) (by omega)
theorem encHour (u : BitVec 3) (v : BitVec 5) : Statement (.encHour u v) := codecWord_wf (by decide) (by omega)
theorem tx (d : Byte) : Statement (.tx d) := txWord_wf d.isLt
theorem start : Statement .start := rfl
theorem rstart : Statement .rstart := rfl
theorem ackchk : Statement .ackchk := rfl
theorem rx : Statement .rx := rfl
theorem mack : Statement .mack := rfl
theorem mnack : Statement .mnack := rfl
theorem stop : Statement .stop := rfl

end Sys2Proof.Laws.EncodeWf
end

