-- ==== Sys2Proof/Tests/Slice0.lean ====
section
/-! SUPPORT. The model's own tests. Expected results are those of spec/95_test_vectors.md (the section is named at each
group) or worked out by hand from the rule named. The last part shows, for every statement with hypotheses, a state and
operands that meet them. -/

namespace Sys2Proof.Tests

open Sys2Proof Sys2Proof.Machine

/-- The reset state with `st` in `q`. -/
def inState (q : SeqState) : State := { State.reset with st := q }

/-- Inputs that complete a primitive, with `p_ack` as given. -/
def completed (ack : Bool) : Inputs := { Inputs.low with pDone := true, pAck := ack }

/-- The reset state in `q`, its primitive completing with ACK. -/
def driven (q : SeqState) : State := (inState q).withPins (completed true)

/-- The reset state, a command offered. -/
def offered (w : BitVec 19) : State := State.reset.withPins { Inputs.low with cmdValid := true, cmdWord := w }

/-- The reset state at an edge with `rst = 1` and everything else asserted. -/
def resetting : State :=
  { State.reset with
    st := .ackw, opR := .write, sent := .data, tx0 := 0xC3, rd0 := 33, status := .badCmd
    env := { Env.quiet with pins := { completed true with rst := true, cmdValid := true, cmdWord := 0x2E1E1 } } }

/-- The answer is a next state of which `p` holds. -/
def after (r : Result) (p : State → Bool) : Bool :=
  match r with
  | .next t => p t
  | .fault _ => false
  | .refused _ => false

/-! ### Words (2.4, 2.3, 2.9; 30_encoding.md R80, R84, R87) -/

theorem test_word_init : decode (.cmd19 0b0000000000000000000) = .ok (.init 0) := by decide
theorem test_word_init_fields : decode (.cmd19 0b0011010101111001101) = .ok (.init 0x1ABCD) := by decide
theorem test_word_write : decode (.cmd19 0b0110111101101111011) = .ok (.write 23 45 59) := by decide
theorem test_word_write_ones : decode (.cmd19 0b0111111111111111111) = .ok (.write 31 63 63) := by decide
theorem test_word_read : decode (.cmd19 0b1000000000000000000) = .ok (.read 0) := by decide
theorem test_word_reservedCmd : decode (.cmd19 0b1111111111111111111) = .ok (.reservedCmd 0x1FFFF) := by decide
theorem test_word_decSec : decode (.codec11 0b00011000011) = .ok (.decSec 0xC3) := by decide
theorem test_word_decMin : decode (.codec11 0b00111111111) = .ok (.decMin 0xFF) := by decide
theorem test_word_decHour : decode (.codec11 0b01000100100) = .ok (.decHour 0x24) := by decide
theorem test_word_codecReserved011 : decode (.codec11 0b01101010101) = .ok (.codecReserved011 0x55) := by decide
theorem test_word_encSec : decode (.codec11 0b10011100001) = .ok (.encSec 3 33) := by decide
theorem test_word_encMin : decode (.codec11 0b10100111111) = .ok (.encMin 0 63) := by decide
theorem test_word_encHour : decode (.codec11 0b11000110111) = .ok (.encHour 1 23) := by decide
theorem test_word_codecReserved111 : decode (.codec11 0b11100000001) = .ok (.codecReserved111 0x01) := by decide
theorem test_word_start : decode (.prim11 0b00000000000) = .ok .start := by decide
theorem test_word_rstart : decode (.prim11 0b00100000000) = .ok .rstart := by decide
theorem test_word_tx : decode (.prim11 0b01011010001) = .ok (.tx 0xD1) := by decide
theorem test_word_ackchk : decode (.prim11 0b01100000000) = .ok .ackchk := by decide
theorem test_word_rx : decode (.prim11 0b10000000000) = .ok .rx := by decide
theorem test_word_mack : decode (.prim11 0b10100000000) = .ok .mack := by decide
theorem test_word_mnack : decode (.prim11 0b11000000000) = .ok .mnack := by decide
theorem test_word_stop : decode (.prim11 0b11100000000) = .ok .stop := by decide

theorem test_encode_write : encode (.write 14 7 33) = .cmd19 0x2E1E1 := by decide
theorem test_encode_tx : encode (.tx 0xC3) = .prim11 0x2C3 := by decide
theorem test_encode_encSec : encode (.encSec 3 33) = .codec11 0x4E1 := by decide

/-! ### Ill-formed words (30_encoding.md R84, R92; log entry 7) -/

theorem test_wf_refuses_wide_command : (PortWord.cmd19 0x80000).fits = false := by decide
theorem test_wf_refuses_wide_codec : (PortWord.codec11 0x800).fits = false := by decide
theorem test_wf_refuses_wide_primitive : (PortWord.prim11 0x800).fits = false := by decide
theorem test_wf_refuses_wdata : (PortWord.prim11 0x0D0).wdataLegal = false := by decide
theorem test_wf_accepts_tx_wdata : (PortWord.prim11 0x2D0).wf = true := by decide
theorem test_decode_refuses_wide : decode (.cmd19 0x80000) = .error .tooWide := by decide
theorem test_decode_refuses_wdata : decode (.prim11 0x7FF) = .error .wdataNotZero := by decide

/-! ### The assembler lines (30_encoding.md R93, R95) -/

theorem test_asm_setTime : (AsmLine.setTime 14 7 33).commands = [.init 0, .write 14 7 33] := by decide
theorem test_asm_word : (AsmLine.word 0x60000).commands = [.reservedCmd 0] := by decide

/-! ### The codec port (2.1, 2.2, 2.3) -/

theorem test_decSec : after (exec (.decSec 0x99) State.reset) (·.cxSampled == 29) = true := by decide
theorem test_decMin : after (exec (.decMin 0xFF) State.reset) (·.cxSampled == 0x2D) = true := by decide
theorem test_decHour : after (exec (.decHour 0x45) State.reset) (·.cxSampled == 25) = true := by decide
theorem test_encSec : after (exec (.encSec 3 33) State.reset) (·.cxSampled == 0xC3) = true := by decide
theorem test_encSec_loses_tens : after (exec (.encSec 0 59) State.reset) (·.cxSampled == 0x49) = true := by decide
theorem test_encMin : after (exec (.encMin 0 63) State.reset) (·.cxSampled == 0x83) = true := by decide
theorem test_encHour : after (exec (.encHour 1 23) State.reset) (·.cxSampled == 0x43) = true := by decide
theorem test_codecReserved : after (exec (.codecReserved111 0xFF) (inState .din)) (·.cxSampled == 0x00) = true := by
  decide

/-! ### Commands (2.5 T-W1, 2.7 T-B1; 41_transactions.md R132, R135) -/

theorem test_init : after (exec (.init 5) { State.reset with tx0 := 0xC3 })
    (fun t => t.st == .start && t.tx0 == 0x00 && t.opR == .init) = true := by decide
theorem test_write : after (exec (.write 14 7 33) State.reset)
    (fun t => t.st == .start && t.tx0 == 0xC3 && t.tx1 == 0x07 && t.tx2 == 0x24) = true := by decide
theorem test_read : after (exec (.read 0) { State.reset with idx := 2, phase := true, fail := true })
    (fun t => t.st == .start && t.opR == .read && t.idx == 0 && !t.phase && !t.fail) = true := by decide
theorem test_reservedCmd : after (exec (.reservedCmd 0) State.reset)
    (fun t => t.st == .idle && t.done && t.status == .badCmd) = true := by decide

/-! ### Primitives (2.5 T-R1, T-W1; 41_transactions.md R136 to R146) -/

theorem test_start : after (exec .start (inState .start))
    (fun t => t.st == .addr && t.env.bus == .held) = true := by decide
theorem test_rstart : after (exec .rstart (inState .rstart)) (fun t => t.st == .addr && t.phase) = true := by decide
theorem test_tx_register : after (exec (.tx 0x00) (inState .regsel))
    (fun t => t.st == .ackw && t.sent == .reg) = true := by decide
theorem test_tx_stores : after
    (exec (.tx 0x07) { inState .dout with
      env := { Env.quiet with attached := true, target := { Target.blank with ptr := 0x01 } } })
    (fun t => t.env.target.regs == [(1, 0x07)] && t.env.target.ptr == 0x02) = true := by decide
theorem test_ackchk_nack : after (exec .ackchk ((inState .ackw).withPins (completed false)))
    (fun t => t.st == .stop && t.fail) = true := by decide
theorem test_ackchk_next_byte : after
    (exec .ackchk { driven .ackw with opR := .write, sent := .data, idx := 1 })
    (fun t => t.st == .dout && t.idx == 2) = true := by decide
theorem test_rx_third_byte : after
    (exec .rx (State.withPins { completed true with pRdata := 0x24 } { inState .din with idx := 2 }))
    (fun t => t.st == .mnack && t.rd2 == 14 && t.rd0 == 0) = true := by decide
theorem test_rx_first_byte : after
    (exec .rx ((inState .din).withPins { completed true with pRdata := 0xC3 }))
    (fun t => t.st == .mack && t.rd0 == 33) = true := by decide
theorem test_mack : after (exec .mack { inState .mack with idx := 1 })
    (fun t => t.st == .din && t.idx == 2) = true := by decide
theorem test_mnack : after (exec .mnack (inState .mnack)) (fun t => t.st == .stop && !t.done) = true := by decide
theorem test_stop : after (exec .stop { inState .stop with env := { Env.quiet with bus := .held } })
    (fun t => t.st == .idle && t.done && t.status == .ok && t.env.bus == .free) = true := by decide
theorem test_stop_failed : after (exec .stop { inState .stop with fail := true })
    (fun t => t.status == .nackFail && t.done) = true := by decide

/-! ### Edges (2.7 T-B1, 2.8 T-C2, T-C3, T-C4) -/

theorem test_edge_reserved : after (step (offered 0x60000))
    (fun t => t.outputs.rspDone && t.outputs.rspStatus == 0b10 && t.outputs.cmdReady && !t.outputs.pReq) = true := by
  decide
theorem test_edge_waits : after (step { inState .ackw with done := true })
    (fun t => t.st == .ackw && t.outputs.pOp == 0b011 && !t.done) = true := by decide
theorem test_edge_reset : after (step resetting)
    (fun t => t.st == .idle && t.tx0 == 0x00 && t.rd0 == 0 && t.status == .ok && !t.done) = true := by decide
theorem test_edge_recovers : after (step (inState .unusedC))
    (fun t => t.st == .idle && !t.outputs.pReq) = true := by decide

theorem test_edge_recovers_idx : after (step { driven .din with idx := 3, done := true, rd2 := 14 })
    (fun t => t.st == .idle && t.idx == 3 && t.rd2 == 14 && !t.done) = true := by decide
theorem test_edge_reset_completes : resetting.traceEntry = [⟨0b011, 0x00, none, none⟩] := by decide

/-! ### Memory (log entry 8) -/

theorem test_memory_write : Memory.writeByte 1 0x07 [(0, 0xC3), (2, 0x24)] = [(0, 0xC3), (1, 0x07), (2, 0x24)] := by
  decide
theorem test_memory_write_blank : Memory.writeByte 2 0x00 [(0, 0xC3), (2, 0x24)] = [(0, 0xC3)] := by decide
theorem test_memory_unlisted : Memory.readByte 1 [(0, 0xC3), (2, 0x24)] = 0x00 := by decide
theorem test_memory_refuses_blank : Memory.wf [(0, 0x00)] = false := by decide

/-! ### The host's words (log entries 10 and 13) -/

theorem test_table_write : decodeTableWord 24 0x2E1E1 = some (.write 14 7 33) := by decide
theorem test_table_stop : decodeTableWord 16 0x700 = some .stop := by decide
theorem test_table_encSec : decodeTableWord 16 0x4E1 = some (.encSec 3 33) := by decide
theorem test_fetch_write : after (step (State.reset.withFetchWord 24 0x2E1E1))
    (fun t => t.st == .start && t.tx0 == 0xC3) = true := by decide
theorem test_fetch_mack : after (step (State.reset.withFetchWord 16 0x500))
    (fun t => t.st == .din && t.idx == 1) = true := by decide
theorem test_fetch_encSec : after (step (State.reset.withFetchWord 16 0x4E1)) (·.cxSampled == 0xC3) = true := by
  decide

/-! ### Witnesses: what meets the hypotheses of each statement -/

/-- A target that is present and holds 0xC3, 0x07, 0x24 at its first offsets. -/
def readyTarget : Target :=
  { Target.blank with present := true, regs := [(0, 0xC3), (1, 0x07), (2, 0x24)] }

/-- A command offered to a block beside the attached target, with the inputs of 15 further edges. -/
def offeredToTarget (w : BitVec 19) : State :=
  { offered w with
    env := { (offered w).env with
      attached := true, target := readyTarget, upcoming := List.replicate 15 Inputs.low } }

/-- A command offered, with the inputs of the edges after it. -/
def scripted (w : BitVec 19) (script : List Inputs) : State :=
  { offered w with env := { (offered w).env with upcoming := script } }

/-- A target the bus addresses for a write or a read, its next byte not an address. -/
def attachedTo (t : Target) (q : SeqState) : State :=
  { driven q with env := { (driven q).env with attached := true, target := t } }

/-- READ in its read phase, waiting for the third byte. -/
def readingThird : State :=
  { driven .din with opR := .read, phase := true, sent := .addr, idx := 2, env := { (driven .din).env with bus := .held } }

/-- Every state meets `step s = .next t` for some `t`; what follows needs only the other hypotheses. -/
theorem witness_step : after (step State.reset) (fun _ => true) = true := by decide

theorem witness_EncodeOfDecodeIsTheWord : decode (.prim11 0x2FF) = .ok (.tx 0xFF) := by decide
theorem witness_IllFormedWordsAreRefusedByName :
    (PortWord.codec11 0x7FF).wf = true ∧ (PortWord.prim11 0x2FF).wf = true ∧ (PortWord.cmd19 0x7FFFF).wf = true := by
  decide
theorem witness_CommandsUseTheirOperandFields :
    (0x3FFFF#19).toNat / 131072 = 1 ∧ (0x20000#19).toNat / 131072 = 1 ∧ State.reset.st = .idle ∧
    (0x00000#19).toNat / 131072 = (0x1FFFF#19).toNat / 131072 ∧ (0x1FFFF#19).toNat / 131072 ≠ 1 ∧
    (0x40000#19).toNat / 131072 = (0x5FFFF#19).toNat / 131072 ∧ (0x5FFFF#19).toNat / 131072 ≠ 1 := by decide
theorem witness_CodecPortIsItsTableAndIsApart :
    after (step (driven .din)) (fun _ => true) = true ∧
    after (step ((driven .din).withPins { (driven .din).env.pins with cxFn := 0b100, cxIn := 0x21 }))
      (·.cxSampled == 0xC3) = true := by decide
theorem witness_CodecRoundTrips :
    (39#6).toNat ≤ 39 ∧ 40 ≤ (40#6).toNat ∧ 40 ≤ (63#6).toNat ∧
    (decSec (encSec 39)).toNat = 39 ∧ (decSec (encSec 40)).toNat = 0 ∧ (decMin (encMin 63)).toNat = 23 := by decide
theorem witness_DecodersIgnoreExactlyTheListedBits :
    (5 : Fin 8).val ≠ 4 ∧ (7 : Fin 8).val ≠ 4 ∧ (7 : Fin 8).val ≠ 5 ∧ (3 : Fin 8).val ≠ 4 ∧ (3 : Fin 8).val ≠ 5 := by
  decide
theorem witness_CommandsAreAccepted : State.reset.st = .idle := by decide
theorem witness_BusyBlockTurnsCommandsAway : (inState .stop).st ≠ .idle := by decide
theorem witness_StartCompletes : (inState .start).st = .start ∧ (inState .start).idx ≠ 3 := by decide
theorem witness_RepeatedStartCompletes : (inState .rstart).st = .rstart ∧ (inState .rstart).idx ≠ 3 := by decide
theorem witness_TransmitCompletes :
    (inState .addr).st = .addr ∧ (inState .regsel).st = .regsel ∧ (inState .dout).st = .dout ∧
    (inState .dout).idx ≠ 3 := by decide
theorem witness_AcknowledgeCheckBranches : (inState .ackw).st = .ackw ∧ (inState .ackw).idx ≠ 3 := by decide
theorem witness_ReceiveDecodesTheByte :
    (inState .din).st = .din ∧ (inState .din).idx = 0 ∧ { inState .din with idx := 1 }.idx = 1 ∧
    { inState .din with idx := 2 }.st = .din := by decide
theorem witness_MasterAckCompletes : (inState .mack).st = .mack ∧ (inState .mack).idx ≠ 3 := by decide
theorem witness_MasterNackCompletes : (inState .mnack).st = .mnack ∧ (inState .mnack).idx ≠ 3 := by decide
theorem witness_StopCompletesTheCommand : (inState .stop).st = .stop ∧ (inState .stop).idx ≠ 3 := by decide
theorem witness_UnrequestedPrimitive :
    (inState .mack).request = some .mack ∧ Instr.mack ≠ .stop ∧
    (∀ d d', ¬(Instr.mack = .tx d ∧ Instr.stop = .tx d')) ∧
    (inState .unusedB).st ≠ .idle ∧ (inState .unusedB).request = none := by
  refine ⟨by decide, by decide, fun _ _ h => by simp at h, by decide, by decide⟩
theorem witness_IndexThreeRecoversToIdle :
    { driven .din with idx := 3 }.idx = 3 ∧ { driven .din with idx := 3 }.request = some .rx ∧
    { inState .mack with idx := 3 }.st ≠ .idle ∧ { inState .mack with idx := 3 }.env.pins.rst = false ∧
    { inState .dout with idx := 3 }.st = .dout := by decide
theorem witness_StepRunsTheDecodedInstruction :
    (offered 0x2E1E1).accepts (.write 14 7 33) = true ∧
    (driven .mnack).request = some .mnack ∧ (driven .mnack).env.pins.rst = false ∧
    (driven .mnack).env.pins.pDone = true ∧ State.reset.env.codecRequest = .decSec 0 :=
  ⟨by decide, by decide, by decide, by decide,
    by simp [Env.codecRequest, decodeCodec, State.reset, Env.quiet, Inputs.low, field]⟩
theorem witness_RequestIsHeldForAnyNumberOfEdges :
    (scripted 0 [Inputs.low, Inputs.low]).env.attached = false ∧
    2 ≤ { scripted 0 [Inputs.low, Inputs.low] with st := .ackw }.env.upcoming.length ∧
    SeqState.ackw.requests = true ∧ { scripted 0 [Inputs.low, Inputs.low] with st := .ackw }.idx ≠ 3 ∧
    (∀ p ∈ { scripted 0 [Inputs.low, Inputs.low] with st := .ackw }.inputsAhead 3,
      p.rst = false ∧ p.pDone = false) := by decide
theorem witness_IdleWithoutCommandOnlyClearsDone :
    State.reset.st = .idle ∧ State.reset.env.pins.rst = false ∧ State.reset.env.pins.cmdValid = false := by decide
theorem witness_UnusedStateRecoversToIdle :
    (inState .unusedF).st ≠ .idle ∧ (inState .unusedF).st.requests = false ∧
    (inState .unusedF).env.pins.rst = false := by decide
theorem witness_ResetEdgeResetsEveryRegister : resetting.env.pins.rst = true := by decide
theorem witness_StatusIsTheCodeOfTheLastCompletedCommand :
    after (step State.reset) (fun _ => true) = true ∧ State.reset.completionEdge = false ∧
    (offered 0x7FFFF).completionEdge = true ∧ (offered 0x7FFFF).st = .idle ∧
    after (step (offered 0x7FFFF)) (·.status == .badCmd) = true ∧
    (driven .stop).completionEdge = true ∧ (driven .stop).st = .stop ∧
    after (step (driven .stop)) (·.status == .ok) = true := by decide
theorem witness_OnlyReceivedBytesWriteTheReadRegisters :
    after (step (driven .mack)) (fun _ => true) = true ∧ (driven .mack).advancesFrom .din = false ∧
    after (step readingThird) (fun _ => true) = true ∧ readingThird.advancesFrom .din = true ∧
    readingThird.env.pins.rst = false := by decide
theorem witness_OnlyInitAndWriteWriteTheTransmitRegisters :
    (∀ u, (driven .mack).accepts (.init u) = false) ∧ (∀ h m v, (driven .mack).accepts (.write h m v) = false) ∧
    (offered 0x1FFFF).accepts (.init 0x1FFFF) = true ∧ (offered 0x3FFFF).accepts (.write 31 63 63) = true ∧
    after (step (offered 0x3FFFF)) (fun t => t.tx0 == 0x83 && t.tx2 == 0x61) = true :=
  ⟨fun _ => rfl, fun _ _ _ => rfl, by decide, by decide, by decide⟩
theorem witness_ContextChangesOnlyWhereListed :
    (driven .mack).env.pins.rst = false ∧ after (step (driven .mack)) (·.idx == 1) = true ∧
    (∀ i, (driven .mack).accepts i = false) := ⟨by decide, by decide, fun _ => rfl⟩
theorem witness_AcceptanceWritesAFreshContext :
    (offered 0x40000).st = .idle ∧ (offered 0x40000).env.pins.cmdValid = true ∧
    (offered 0x40000).env.pins.rst = false ∧ after (step (offered 0x40000)) (·.opR == .read) = true ∧
    ¬(State.reset.st = .idle ∧ State.reset.env.pins.cmdValid = true ∧ State.reset.env.pins.rst = false) := by decide
theorem witness_NoCommandIsAcceptedWhileBusy : (inState .start).st ≠ .idle := by decide
theorem witness_ResponseInputsAreReadOnlyWhereListed :
    (inState .din).st ≠ .ackw ∧ (inState .ackw).st ≠ .din ∧ State.reset.outputs.pReq = false := by decide
theorem witness_AcceptanceForgetsTheOldContext : (offered 0x40001).accepts (.read 1) = true := by decide
theorem witness_EachStateRequestsItsPrimitive :
    (inState .idle).st.code = 0 ∧ 11 ≤ (inState .unusedB).st.code.toNat ∧ 11 ≤ (inState .unusedF).st.code.toNat ∧
    (inState .addr).st = .addr ∧ (inState .regsel).st = .regsel ∧ (inState .dout).st = .dout := by decide
theorem witness_RequestIsItsWord :
    State.reset.outputs.pReq = false ∧ (inState .din).outputs.pOp ≠ 0b010 ∧
    (inState .dout).idx = 0 ∧ { inState .dout with idx := 1 }.idx = 1 ∧ { inState .dout with idx := 2 }.idx = 2 := by
  decide
theorem witness_EveryEdgeKeepsTheInvariant :
    readingThird.inv = true ∧ after (step readingThird) (fun _ => true) = true := by decide
theorem witness_EveryEdgeKeepsMemoryCanonical :
    Memory.wf [(1, 0x07#8), (255, 0x24#8)] = true ∧
    Memory.wf (attachedTo { Target.blank with ptr := 0xFF } .dout).env.target.regs = true ∧
    after (step (attachedTo { Target.blank with ptr := 0xFF } .dout)) (fun t => t.env.target.regs == []) =
      true := by decide
theorem witness_EveryEdgeKeepsTheBusHeldInATransaction :
    readingThird.busHeldOk = true ∧ after (step readingThird) (fun _ => true) = true := by decide
theorem witness_OnlyADataByteChangesMemory :
    after (exec (.tx 0x24) (attachedTo { Target.blank with ptr := 0xFF } .dout)) (fun _ => true) = true ∧
    (attachedTo { Target.blank with ptr := 0xFF } .dout).st.sends = true ∧
    (attachedTo { Target.blank with ptr := 0xFF } .dout).env.storesAt = some 255 ∧
    Memory.wf (attachedTo { Target.blank with ptr := 0xFF } .dout).env.target.regs = true ∧
    (attachedTo { Target.blank with ptr := 0xFF } .dout).env.storesAt ≠ some 254 := by decide
theorem witness_TargetHearsThePrimitives :
    (attachedTo readyTarget .start).env.attached = true ∧ (attachedTo readyTarget .start).st = .start ∧
    (attachedTo { readyTarget with addressNext := true } .addr).st.sends = true ∧
    (attachedTo { readyTarget with addressNext := true } .addr).env.target.addressNext = true ∧
    (attachedTo readyTarget .dout).env.target.addressNext = false ∧
    (attachedTo readyTarget .dout).env.target.dir = .write ∧
    (attachedTo readyTarget .dout).env.target.first = false ∧
    (attachedTo { readyTarget with first := true } .regsel).env.target.first = true ∧
    (attachedTo { readyTarget with dir := .read } .din).env.target.dir = .read ∧
    (attachedTo readyTarget .mack).st = .mack ∧ (attachedTo readyTarget .mnack).st = .mnack ∧
    (attachedTo readyTarget .stop).st = .stop ∧ (attachedTo readyTarget .ackw).st = .ackw := by decide
theorem witness_TargetAnswersTheRequest :
    after (step (attachedTo { Target.blank with byteAcked := some true } .addr))
      (fun t => t.env.attached && t.st.requests && t.env.target.addressNext == false) = true ∧
    after (step (attachedTo { Target.blank with dir := .read, regs := [(0, 0xC3)], byteAcked := some true } .mack))
      (fun t => t.env.attached && t.st.requests && t.env.target.byteAcked == some true
        && t.env.target.dir == .read && t.env.pins.pRdata == 0xC3) = true := by decide
theorem witness_NackAbortsAndReleases :
    ((inState .ackw).withPins (completed false)).advancesFrom .ackw = true ∧
    ((inState .ackw).withPins (completed false)).env.pins.pAck = false ∧
    { driven .stop with fail := true }.env.pins.pDone = true ∧ { inState .stop with fail := true }.fail = true ∧
    { inState .stop with fail := true }.idx ≠ 3 ∧
    { inState .stop with fail := true }.env.pins.pDone = false ∧
    after (step { driven .stop with fail := true }) (·.status == .nackFail) = true := by decide
theorem witness_EachEdgePlaysTheSequence :
    (offered 0x40000).inv = true ∧ (offered 0x40000).accepts (.read 0) = true ∧
    readingThird.inv = true ∧ readingThird.completesPrimitive = true ∧
    { readingThird with env := Env.quiet }.inv = true ∧
    { readingThird with env := Env.quiet }.completesPrimitive = false ∧
    (∀ i, { readingThird with env := Env.quiet }.accepts i = false) :=
  ⟨by decide, by decide, by decide, by decide, by decide, by decide, fun _ => rfl⟩
theorem witness_EdgesRefineTheTransaction :
    { readingThird with env := { readingThird.env with upcoming := [completed true, completed true] } }.inv = true ∧
    3 ≤ { readingThird with env := { readingThird.env with upcoming := [completed true, completed true] } }.env.upcoming.length
      + 1 ∧
    (∀ p ∈ { readingThird with
        env := { readingThird.env with upcoming := [completed true, completed true] } }.inputsAhead 3,
      p.rst = false ∧ p.cmdValid = false) := by decide
theorem witness_CommandsIssueTheirSequencesAndComplete :
    (scripted 0x40000 (List.replicate 15 (completed true))).accepts (.read 0) = true ∧
    fullSequence (.read 0) ≠ [] ∧ 3 ≤ checkCount (.read 0) ∧
    answeredWithNackAt 0 (nackedAt 0 (fullSequence (.read 0))) (List.replicate 15 (completed true)) = true ∧
    answeredWithNackAt 3 (nackedAt 3 (fullSequence (.read 0)))
      (List.replicate 7 (completed true) ++ [completed false, completed true]) = true ∧
    5 ≤ checkCount (.write 14 7 33) ∧
    answeredWithNackAt 5 (nackedAt 5 (fullSequence (.write 14 7 33)))
      (List.replicate 10 (completed true) ++ [completed false, completed true]) = true ∧
    answeredWithNackAt 1 (nackedAt 1 (fullSequence (.init 0)))
      (List.replicate 2 (completed true) ++ [completed false, completed true]) = true := by decide
theorem witness_WriteReachesTheTarget :
    (offeredToTarget 0x2E1E1).accepts (.write 14 7 33) = true ∧ (offeredToTarget 0x2E1E1).env.attached = true ∧
    (offeredToTarget 0x2E1E1).env.target.present = true ∧ (offeredToTarget 0x2E1E1).env.target.nackAt = none ∧
    Memory.wf (offeredToTarget 0x2E1E1).env.target.regs = true ∧
    12 ≤ (offeredToTarget 0x2E1E1).env.upcoming.length ∧
    (∀ p ∈ (offeredToTarget 0x2E1E1).env.upcoming.take 12, p.rst = false) := by decide
theorem witness_ReadReturnsTheTargetsBytes :
    (offeredToTarget 0x40000).accepts (.read 0) = true ∧ (offeredToTarget 0x40000).env.target.present = true ∧
    15 ≤ (offeredToTarget 0x40000).env.upcoming.length ∧
    (∀ p ∈ (offeredToTarget 0x40000).env.upcoming.take 15, p.rst = false) := by decide
theorem witness_PrimitiveCompletesWhereRequestMeetsDone :
    resetting.request = some .ackchk ∧ resetting.env.pins.pDone = true ∧
    after (step resetting) (fun t => t.st == .idle) = true ∧
    (driven .ackw).request = some .ackchk ∧ (driven .ackw).env.pins.rst = false ∧
    (driven .ackw).env.pins.pDone = true ∧ after (step (driven .ackw)) (fun _ => true) = true := by decide

end Sys2Proof.Tests
end

section
/-! PROOFS. The edges refine the transaction (spec/41_transactions.md R147 to R152): what every edge leaves of the
environment, the part of the invariant that ties the context registers to the place in the transaction, the head of what
is left to issue, and the primitive trace over any number of edges. -/

namespace Sys2Proof.Machine

variable {s t : State}

/-! ### Every edge has a next state, and time passes -/

theorem step_total (s : State) : ∃ t, step s = .next t := by
  rw [step_eq]
  rcases s.edgeAction_cases with ⟨-, ha⟩ | ⟨-, -, -, ha⟩ | ⟨-, -, -, ha⟩ | ⟨-, -, -, ha⟩ |
      ⟨i, -, -, hq, -, ha⟩ | ⟨-, -, -, -, -, ha⟩ | ⟨-, -, -, -, -, ha⟩ <;> rw [ha]
  case inr.inl =>
    obtain ⟨b, hb⟩ := exec_command s.env.pins.cmdWord.toNat (s.showCodec s.env.codecRequest)
    exact ⟨b.tick, by simp only [hb, Result.andThen_next]⟩
  case inr.inr.inr.inr.inl =>
    obtain ⟨b, hb⟩ := exec_request (s := s.showCodec s.env.codecRequest) hq
    exact ⟨b.tick, by simp only [hb, Result.andThen_next]⟩
  all_goals exact ⟨_, rfl⟩

/-- What an edge does to the environment before time passes touches neither the inputs to come nor whether T is attached. -/
structure Env.SameSupply (e e' : Env) : Prop where
  upcoming : e'.upcoming = e.upcoming
  edge : e'.edge = e.edge
  attached : e'.attached = e.attached

theorem Env.sameSupply_refl (e : Env) : e.SameSupply e := ⟨rfl, rfl, rfl⟩

theorem Env.sameSupply_hear (i : Instr) (e : Env) : e.SameSupply (e.hear i) := by
  constructor <;> simp

theorem State.sameSupply_resetEnv (s : State) : s.env.SameSupply s.resetEnv := by
  have hr : s.env.SameSupply s.hearRequest := by
    unfold State.hearRequest
    cases s.request with
    | none => exact s.env.sameSupply_refl
    | some i => exact Env.sameSupply_hear i s.env
  obtain ⟨hu, he, ha⟩ := hr
  unfold State.resetEnv
  split <;> constructor <;> simp [hu, he, ha]

theorem Env.SameSupply.supplied {e e' : Env} (h : e.SameSupply e') : e'.supplied = e.supplied := by
  simp only [Env.supplied, h.upcoming, h.edge]

/-- Without T the inputs of the next edge are those the outside world supplies. -/
theorem Env.answered_of_not_attached {e : Env} (h : e.attached = false) (q : SeqState) (p : Inputs) :
    e.answered q p = p := by
  simp [Env.answered, h]

/-- Every edge ends with a tick of the environment. -/
theorem Edge.env_tick (h : Edge s t) : ∃ e, s.env.SameSupply e ∧ t.env = e.tick t.st := by
  cases h with
  | reset => exact ⟨_, (s.showCodec _).sameSupply_resetEnv, rfl⟩
  | hold | recover | init | write | read | reservedCmd => exact ⟨_, s.env.sameSupply_refl, rfl⟩
  | recoverCompleted i | start | rstart | tx | rx | mack | mnack | stop =>
    exact ⟨_, Env.sameSupply_hear _ s.env, rfl⟩
  | ackchk =>
    refine ⟨_, Env.sameSupply_hear .ackchk s.env, ?_⟩
    rw [State.checkAck_eq]
    rfl

/-- Without T, time passes from one listed input to the next. -/
theorem Edge.env_of_not_attached (h : Edge s t) (ha : s.env.attached = false) :
    t.env.pins = s.env.supplied ∧ t.env.upcoming = s.env.upcoming.tail ∧ t.env.attached = false := by
  obtain ⟨e, he, ht⟩ := h.env_tick
  have hd : e.attached = false := he.attached.trans ha
  simp [ht, Env.answered_of_not_attached hd, he.supplied, he.upcoming, hd]

/-- The inputs listed for the next `n + 1` edges are those of this edge and then those of the state it leads to. -/
theorem Edge.inputsAhead_succ (h : Edge s t) (ha : s.env.attached = false) {n : Nat} (hn : n ≤ s.env.upcoming.length) :
    s.inputsAhead (n + 1) = s.env.pins :: t.inputsAhead n := by
  obtain ⟨hp, hu, -⟩ := h.env_of_not_attached ha
  cases hl : s.env.upcoming with
  | nil =>
    obtain rfl : n = 0 := by simpa [hl] using hn
    simp [State.inputsAhead]
  | cons p ps => simp [State.inputsAhead, hp, hu, hl, Env.supplied]

/-! ### The context registers agree with the place in the transaction -/

/-- The part of the invariant that says where in its transaction the block is. -/
structure State.OnCourse (s : State) : Prop where
  context : s.contextOk = true
  idx : s.idx ≠ 3

theorem State.onCourse_of_inv (h : s.inv = true) : s.OnCourse := by
  simp only [State.inv, Bool.and_eq_true] at h
  obtain ⟨⟨⟨⟨⟨⟨hc, hx⟩, -⟩, -⟩, -⟩, -⟩, -⟩ := h
  exact ⟨hc, by simpa using hx⟩

/-- Two states at the same place of the same transaction: the registers `contextOk` and `remaining` read are equal. -/
structure State.SameContext (s t : State) : Prop where
  st : t.st = s.st
  opR : t.opR = s.opR
  phase : t.phase = s.phase
  sent : t.sent = s.sent
  idx : t.idx = s.idx
  fail : t.fail = s.fail
  tx0 : t.tx0 = s.tx0
  tx1 : t.tx1 = s.tx1
  tx2 : t.tx2 = s.tx2

theorem State.OnCourse.congr (h : s.OnCourse) (hc : s.SameContext t) : t.OnCourse :=
  ⟨(State.contextOk_congr hc.st hc.opR hc.phase hc.sent hc.idx hc.fail).trans h.context, hc.idx.trans_ne h.idx⟩

theorem State.SameContext.remaining (h : s.SameContext t) : t.remaining = s.remaining :=
  State.remaining_congr h.st h.opR h.phase h.sent h.idx h.tx0 h.tx1 h.tx2

theorem State.sameContext_tick (s : State) : s.SameContext s.tick := by constructor <;> simp

theorem State.idx_cases (hx : s.idx ≠ 3) : s.idx = 0 ∨ s.idx = 1 ∨ s.idx = 2 := by
  generalize s.idx = x at hx
  revert x; decide

/-! The context each state of a transaction demands (R36, R136 to R146). -/

theorem State.contextOk_start (hs : s.st = .start) : s.contextOk = true ↔
    s.opR ≠ .reserved ∧ s.phase = false ∧ s.sent = .noByte ∧ s.idx = 0 ∧ s.fail = false := by
  simp [State.contextOk, hs, and_assoc]

theorem State.contextOk_addr (hs : s.st = .addr) : s.contextOk = true ↔
    s.opR ≠ .reserved ∧ s.idx = 0 ∧ s.fail = false ∧
      ((s.phase = true ∧ s.sent = .reg ∧ s.opR = .read) ∨ (s.phase = false ∧ s.sent = .noByte)) := by
  cases hp : s.phase <;> simp [State.contextOk, hs, hp, and_assoc]

theorem State.contextOk_regsel (hs : s.st = .regsel) : s.contextOk = true ↔
    s.opR ≠ .reserved ∧ s.phase = false ∧ s.sent = .addr ∧ s.idx = 0 ∧ s.fail = false := by
  simp [State.contextOk, hs, and_assoc]

theorem State.contextOk_ackw (hs : s.st = .ackw) : s.contextOk = true ↔
    s.opR ≠ .reserved ∧ s.fail = false ∧
      ((s.sent = .addr ∧ s.idx = 0 ∧ (s.phase = false ∨ s.opR = .read)) ∨
       (s.sent = .reg ∧ s.phase = false ∧ s.idx = 0) ∨
       (s.sent = .data ∧ s.phase = false ∧ s.opR ≠ .read ∧ (s.opR ≠ .init ∨ s.idx = 0))) := by
  cases hn : s.sent <;> simp [State.contextOk, hs, hn, and_assoc]

theorem State.contextOk_rstart (hs : s.st = .rstart) : s.contextOk = true ↔
    s.opR = .read ∧ s.phase = false ∧ s.sent = .reg ∧ s.idx = 0 ∧ s.fail = false := by
  simp [State.contextOk, hs, and_assoc]

theorem State.contextOk_dout (hs : s.st = .dout) : s.contextOk = true ↔
    s.phase = false ∧ s.fail = false ∧
      ((s.opR = .init ∧ s.idx = 0 ∧ s.sent = .reg) ∨ (s.opR = .write ∧ s.idx = 0 ∧ s.sent = .reg) ∨
       (s.opR = .write ∧ s.idx ≠ 0 ∧ s.sent = .data)) := by
  simp [State.contextOk, hs, and_assoc, or_assoc]

theorem State.contextOk_din (hs : s.st = .din) : s.contextOk = true ↔
    s.opR = .read ∧ s.phase = true ∧ s.sent = .addr ∧ s.fail = false := by
  simp [State.contextOk, hs, and_assoc]

theorem State.contextOk_mack (hs : s.st = .mack) : s.contextOk = true ↔
    s.opR = .read ∧ s.phase = true ∧ s.sent = .addr ∧ s.fail = false ∧ s.idx ≠ 2 := by
  simp [State.contextOk, hs, and_assoc]

theorem State.contextOk_mnack (hs : s.st = .mnack) : s.contextOk = true ↔
    s.opR = .read ∧ s.phase = true ∧ s.sent = .addr ∧ s.fail = false ∧ s.idx = 2 := by
  simp [State.contextOk, hs, and_assoc]

theorem State.contextOk_stop (hs : s.st = .stop) : s.contextOk = true ↔ s.opR ≠ .reserved := by
  simp [State.contextOk, hs]

theorem State.contextOk_idle (hs : s.st = .idle) : s.contextOk = true := by
  simp [State.contextOk, hs]

theorem idx_succ_inRange {x : BitVec 2} (h2 : x ≠ 2) (h3 : x ≠ 3) :
    x + 1 ≠ 0 ∧ x + 1 ≠ 3 ∧ (x + 1).toNat = x.toNat + 1 := by
  revert x; decide

/-- START leads to the write phase (R136). -/
theorem State.onCourse_started (h : s.OnCourse) (hs : s.st = .start) : State.OnCourse { s with st := .addr } := by
  obtain ⟨ho, hp, hn, hi, hf⟩ := (State.contextOk_start hs).1 h.context
  exact ⟨(State.contextOk_addr rfl).2 ⟨ho, hi, hf, .inr ⟨hp, hn⟩⟩, h.idx⟩

/-- RSTART leads to the read phase (R137). -/
theorem State.onCourse_restarted (h : s.OnCourse) (hs : s.st = .rstart) :
    State.OnCourse { s with phase := true, st := .addr } := by
  obtain ⟨ho, -, hn, hi, hf⟩ := (State.contextOk_rstart hs).1 h.context
  exact ⟨(State.contextOk_addr rfl).2 ⟨by simp [ho], hi, hf, .inl ⟨rfl, hn, ho⟩⟩, h.idx⟩

/-- MACK leads to the next byte (R144). -/
theorem State.onCourse_macked (h : s.OnCourse) (hs : s.st = .mack) :
    State.OnCourse { s with idx := s.idx + 1, st := .din } := by
  obtain ⟨ho, hp, hn, hf, h2⟩ := (State.contextOk_mack hs).1 h.context
  obtain ⟨-, h3, -⟩ := idx_succ_inRange h2 h.idx
  exact ⟨(State.contextOk_din rfl).2 ⟨ho, hp, hn, hf⟩, h3⟩

/-- MNACK leads to STOP (R145). -/
theorem State.onCourse_mnacked (h : s.OnCourse) (hs : s.st = .mnack) : State.OnCourse { s with st := .stop } := by
  obtain ⟨ho, -⟩ := (State.contextOk_mnack hs).1 h.context
  exact ⟨(State.contextOk_stop rfl).2 (by simp [ho]), h.idx⟩

/-- A TX leads to ACKW with the byte's kind recorded (R138). -/
theorem State.onCourse_sent (h : s.OnCourse) (hs : s.st.sends = true) :
    State.OnCourse { s with sent := s.sentByte, st := .ackw } := by
  obtain ⟨hc, hx⟩ := h
  refine ⟨(State.contextOk_ackw rfl).2 ?_, hx⟩
  rcases SeqState.sends_cases hs with hs | hs | hs
  · have hn : s.sentByte = .addr := by simp [State.sentByte, hs]
    obtain ⟨ho, hi, hf, ⟨-, -, hr⟩ | ⟨hp, -⟩⟩ := (State.contextOk_addr hs).1 hc
    · exact ⟨ho, hf, .inl ⟨hn, hi, .inr hr⟩⟩
    · exact ⟨ho, hf, .inl ⟨hn, hi, .inl hp⟩⟩
  · have hn : s.sentByte = .reg := by simp [State.sentByte, hs]
    obtain ⟨ho, hp, -, hi, hf⟩ := (State.contextOk_regsel hs).1 hc
    exact ⟨ho, hf, .inr (.inl ⟨hn, hp, hi⟩)⟩
  · have hn : s.sentByte = .data := by simp [State.sentByte, hs]
    obtain ⟨hp, hf, ⟨ho, hi, -⟩ | ⟨ho, -⟩ | ⟨ho, -⟩⟩ := (State.contextOk_dout hs).1 hc
    · exact ⟨by simp [ho], hf, .inr (.inr ⟨hn, hp, by simp [ho], .inr hi⟩)⟩
    all_goals exact ⟨by simp [ho], hf, .inr (.inr ⟨hn, hp, by simp [ho], .inl (by simp [ho])⟩)⟩

theorem Op.eq_init_or_write {o : Op} (hr : o ≠ .read) (hs : o ≠ .reserved) : o = .init ∨ o = .write := by
  cases o <;> simp at hr hs ⊢

/-- An acknowledged byte leads to the next place of its transaction (R139). -/
theorem State.onCourse_acknowledged (h : s.OnCourse) (hs : s.st = .ackw) : s.acknowledged.OnCourse := by
  obtain ⟨hc, hx⟩ := h
  obtain ⟨ho, hf, hk⟩ := (State.contextOk_ackw hs).1 hc
  rcases s.acknowledged_cases with ⟨hn, hp, he⟩ | ⟨hn, hp, he⟩ | ⟨hn, hr, he⟩ | ⟨hn, hr, he⟩ | ⟨hn, -, he⟩ |
      ⟨hn, hd, he⟩ | ⟨hn, he⟩ <;> rw [he]
  · obtain ⟨-, hr⟩ : s.idx = 0 ∧ s.opR = .read := by simpa [hn, hp] using hk
    exact ⟨(State.contextOk_din rfl).2 ⟨hr, hp, hn, hf⟩, hx⟩
  · have hi : s.idx = 0 := by simpa [hn, hp] using hk
    exact ⟨(State.contextOk_regsel rfl).2 ⟨ho, hp, hn, hi, hf⟩, hx⟩
  · obtain ⟨hp, hi⟩ : s.phase = false ∧ s.idx = 0 := by simpa [hn] using hk
    exact ⟨(State.contextOk_rstart rfl).2 ⟨hr, hp, hn, hi, hf⟩, hx⟩
  · obtain ⟨hp, hi⟩ : s.phase = false ∧ s.idx = 0 := by simpa [hn] using hk
    refine ⟨(State.contextOk_dout rfl).2 ⟨hp, hf, ?_⟩, hx⟩
    rcases Op.eq_init_or_write hr ho with hop | hop
    · exact .inl ⟨hop, hi, hn⟩
    · exact .inr (.inl ⟨hop, hi, hn⟩)
  · exact ⟨(State.contextOk_stop rfl).2 ho, hx⟩
  · obtain ⟨hi, h2⟩ := not_or.1 hd
    obtain ⟨h0, h3, -⟩ := idx_succ_inRange h2 hx
    obtain ⟨hp, hr, -⟩ : s.phase = false ∧ s.opR ≠ .read ∧ (s.opR ≠ .init ∨ s.idx = 0) := by simpa [hn] using hk
    have hw : s.opR = .write := (Op.eq_init_or_write hr ho).resolve_left hi
    exact ⟨(State.contextOk_dout rfl).2 ⟨hp, hf, .inr (.inr ⟨hw, h0, hn⟩)⟩, h3⟩
  · simp [hn] at hk

/-- ACKW leads to the next place or to STOP (R139). -/
theorem State.onCourse_checkAck (h : s.OnCourse) (hs : s.st = .ackw) : s.checkAck.OnCourse := by
  rcases s.checkAck_cases with ⟨-, he⟩ | ⟨-, he⟩ <;> rw [he]
  · obtain ⟨ho, -⟩ := (State.contextOk_ackw hs).1 h.context
    exact ⟨(State.contextOk_stop rfl).2 ho, h.idx⟩
  · exact State.onCourse_acknowledged h hs

/-! DIN writes `rd[0..2]` alone (R143). -/

@[simp] theorem State.receive_st (b : Byte) : (s.receive b).st = s.st := rfl
@[simp] theorem State.receive_opR (b : Byte) : (s.receive b).opR = s.opR := rfl
@[simp] theorem State.receive_phase (b : Byte) : (s.receive b).phase = s.phase := rfl
@[simp] theorem State.receive_sent (b : Byte) : (s.receive b).sent = s.sent := rfl
@[simp] theorem State.receive_idx (b : Byte) : (s.receive b).idx = s.idx := rfl
@[simp] theorem State.receive_fail (b : Byte) : (s.receive b).fail = s.fail := rfl
@[simp] theorem State.receive_tx0 (b : Byte) : (s.receive b).tx0 = s.tx0 := rfl
@[simp] theorem State.receive_tx1 (b : Byte) : (s.receive b).tx1 = s.tx1 := rfl
@[simp] theorem State.receive_tx2 (b : Byte) : (s.receive b).tx2 = s.tx2 := rfl

/-- A byte received leads to MNACK after the third, and to MACK after any other (R143). -/
theorem State.onCourse_received (h : s.OnCourse) (hs : s.st = .din) :
    State.OnCourse { s with st := if s.idx = 2 then .mnack else .mack } := by
  obtain ⟨hc, hx⟩ := h
  obtain ⟨ho, hp, hn, hf⟩ := (State.contextOk_din hs).1 hc
  by_cases h2 : s.idx = 2
  · rw [if_pos h2]
    exact ⟨(State.contextOk_mnack rfl).2 ⟨ho, hp, hn, hf, h2⟩, hx⟩
  · rw [if_neg h2]
    exact ⟨(State.contextOk_mack rfl).2 ⟨ho, hp, hn, hf, h2⟩, hx⟩

/-- STOP's transition, and every recovery, leads to IDLE, which asks nothing of the context. -/
theorem State.onCourse_idle (hs : s.st = .idle) (hx : s.idx ≠ 3) : s.OnCourse := ⟨State.contextOk_idle hs, hx⟩

/-- Acceptance leads to START in the context it writes (R131). -/
theorem State.onCourse_accepted (hs : s.st = .start) (ho : s.opR ≠ .reserved) (hp : s.phase = false)
    (hn : s.sent = .noByte) (hi : s.idx = 0) (hf : s.fail = false) : s.OnCourse :=
  ⟨(State.contextOk_start hs).2 ⟨ho, hp, hn, hi, hf⟩, by simp [hi]⟩

/-- Every edge keeps the context registers in agreement with the place in the transaction (R36, R131 to R146). -/
theorem Edge.onCourse (h : Edge s t) (ho : s.OnCourse) : t.OnCourse := by
  cases h with
  | reset => exact State.onCourse_idle rfl (by simp [State.reset])
  | hold => exact ho.congr (by constructor <;> simp)
  | recover => exact State.onCourse_idle rfl ho.idx
  | recoverCompleted i _ _ _ hx => exact absurd hx ho.idx
  | init | write | read => exact State.onCourse_accepted rfl (by simp) rfl rfl rfl rfl
  | reservedCmd u _ hs => exact State.onCourse_idle hs (by simp)
  | start _ _ hs => exact (State.onCourse_started ho hs).congr (by constructor <;> simp)
  | rstart _ _ hs => exact (State.onCourse_restarted ho hs).congr (by constructor <;> simp)
  | tx _ _ hs => exact (State.onCourse_sent ho hs).congr (by constructor <;> simp)
  | ackchk _ _ hs =>
    have ha : ((s.showCodec s.env.codecRequest).completed .ackchk).OnCourse := ho.congr (by constructor <;> simp)
    exact (State.onCourse_checkAck ha hs).congr (by constructor <;> simp)
  | rx _ _ hs => exact (State.onCourse_received ho hs).congr (by constructor <;> simp)
  | mack _ _ hs => exact (State.onCourse_macked ho hs).congr (by constructor <;> simp)
  | mnack _ _ hs => exact (State.onCourse_mnacked ho hs).congr (by constructor <;> simp)
  | stop => exact State.onCourse_idle rfl (by simpa using ho.idx)

/-! ### The head of what is left to issue -/

/-- Data byte `idx` and its check come first; after the last one only STOP is left (R147, R148). -/
theorem State.dataFrom_idx (hx : s.idx ≠ 3) (hi : s.opR = .init → s.idx = 0) :
    s.dataFrom s.idx.toNat = .tx (s.txAt s.idx) :: .ackchk ::
      if s.opR = .init ∨ s.idx = 2 then [.stop] else s.dataFrom (s.idx.toNat + 1) := by
  by_cases ho : s.opR = .init
  · simp [State.dataFrom, State.txAt, sendChecked, ho, hi ho]
  · rcases State.idx_cases hx with h | h | h <;> simp [State.dataFrom, State.txAt, sendChecked, ho, h]

/-- RX of byte `idx` comes first; MNACK and STOP follow the third byte, MACK any other (R149). -/
theorem readFrom_idx {x : BitVec 2} (hx : x ≠ 3) :
    readFrom x.toNat = .rx :: if x = 2 then [.mnack, .stop] else .mack :: readFrom (x.toNat + 1) := by
  revert x; decide

theorem State.afterAck_data (hn : s.sent = .data) :
    s.afterAck = if s.opR = .init ∨ s.idx = 2 then [.stop] else s.dataFrom (s.idx.toNat + 1) := by
  simp only [State.afterAck, hn]

/-- A TX is followed by its check and by what follows its acknowledgement (R147). -/
theorem State.remaining_sends (h : s.OnCourse) (hs : s.st.sends = true) :
    s.remaining = .tx s.wdata :: State.remaining { s with sent := s.sentByte, st := .ackw } := by
  obtain ⟨hc, hx⟩ := h
  rcases SeqState.sends_cases hs with hs | hs | hs
  · cases hp : s.phase <;> simp only [State.remaining, State.sentByte, State.wdata, hs, hp] <;> rfl
  · simp only [State.remaining, State.sentByte, State.wdata, hs]
    rfl
  · obtain ⟨-, -, ho⟩ := (State.contextOk_dout hs).1 hc
    have hi : s.opR = .init → s.idx = 0 := by
      rcases ho with ⟨-, hi, -⟩ | ⟨ho, -⟩ | ⟨ho, -⟩
      · exact fun _ => hi
      all_goals simp [ho]
    simp only [State.remaining, State.sentByte, State.wdata, hs, State.dataFrom_idx hx hi]
    rfl

/-- Acknowledged, the byte leaves what follows it (R139, R147 to R149). -/
theorem State.remaining_acknowledged (h : s.OnCourse) (hs : s.st = .ackw) :
    s.remaining = .ackchk :: s.acknowledged.remaining := by
  obtain ⟨hc, hx⟩ := h
  obtain ⟨-, -, hk⟩ := (State.contextOk_ackw hs).1 hc
  have hr : s.remaining = .ackchk :: s.afterAck := by simp [State.remaining, hs]
  rw [hr]
  rcases s.acknowledged_cases with ⟨hn, hp, he⟩ | ⟨hn, hp, he⟩ | ⟨hn, hr, he⟩ | ⟨hn, hr, he⟩ | ⟨hn, hd, he⟩ |
      ⟨hn, hd, he⟩ | ⟨hn, he⟩ <;> rw [he]
  · obtain ⟨hi, -⟩ : s.idx = 0 ∧ s.opR = .read := by simpa [hn, hp] using hk
    simp [State.remaining, State.afterAck, hn, hp, hi]
  · simp only [State.remaining, State.afterAck, hn, hp]
    rfl
  · simp [State.remaining, State.afterAck, State.afterSelect, hn, hr]
  · obtain ⟨-, hi⟩ : s.phase = false ∧ s.idx = 0 := by simpa [hn] using hk
    simp [State.remaining, State.afterAck, State.afterSelect, State.dataFrom, hn, hr, hi]
  · rw [State.afterAck_data hn, if_pos hd]
    rfl
  · obtain ⟨-, -, hx'⟩ := idx_succ_inRange (not_or.1 hd).2 hx
    rw [State.afterAck_data hn, if_neg hd, ← hx']
    rfl
  · simp [hn] at hk

/-- ACKW leaves only STOP at a NACK (R139, R151). -/
theorem State.remaining_checkAck (h : s.OnCourse) (hs : s.st = .ackw) :
    ∃ ps, s.remaining = .ackchk :: ps ∧ s.checkAck.remaining = if s.env.pins.pAck = false then [.stop] else ps := by
  refine ⟨_, State.remaining_acknowledged h hs, ?_⟩
  rcases s.checkAck_cases with ⟨hp, he⟩ | ⟨hp, he⟩ <;> rw [he, hp] <;> rfl

/-- RX is followed by MACK or MNACK (R149). -/
theorem State.remaining_din (hx : s.idx ≠ 3) (hs : s.st = .din) :
    s.remaining = .rx :: State.remaining { s with st := if s.idx = 2 then .mnack else .mack } := by
  simp only [State.remaining, hs, readFrom_idx hx]
  split <;> rfl

/-- MACK is followed by the RX of the next byte (R149). -/
theorem State.remaining_mack (h : s.OnCourse) (hs : s.st = .mack) :
    s.remaining = .mack :: State.remaining { s with idx := s.idx + 1, st := .din } := by
  obtain ⟨-, -, -, -, h2⟩ := (State.contextOk_mack hs).1 h.context
  obtain ⟨-, -, hx⟩ := idx_succ_inRange h2 h.idx
  simp only [State.remaining, hs, hx]
  rfl

/-- START is followed by the write phase (R147). -/
theorem State.remaining_start (h : s.OnCourse) (hs : s.st = .start) :
    s.remaining = .start :: State.remaining { s with st := .addr } := by
  obtain ⟨-, hp, -⟩ := (State.contextOk_start hs).1 h.context
  simp only [State.remaining, hs, hp]
  rfl

/-- RSTART is followed by the read phase (R149). -/
theorem State.remaining_rstart (hs : s.st = .rstart) :
    s.remaining = .rstart :: State.remaining { s with phase := true, st := .addr } := by
  simp only [State.remaining, hs]
  rfl

theorem State.remaining_mnack (hs : s.st = .mnack) :
    s.remaining = .mnack :: State.remaining { s with st := .stop } := by
  simp only [State.remaining, hs]

theorem State.remaining_stop (hs : s.st = .stop) : s.remaining = .stop :: State.remaining { s with st := .idle } := by
  simp only [State.remaining, hs]

/-- Where nothing is requested nothing is left (R142). -/
theorem State.remaining_of_not_requests (hq : s.st.requests = false) : s.remaining = [] := by
  unfold State.remaining
  cases hs : s.st <;> simp [hs, SeqState.requests] at hq ⊢

theorem State.request_of_sends (hs : s.st.sends = true) : s.request = some (.tx s.wdata) := by
  rcases SeqState.sends_cases hs with hs | hs | hs <;> simp [State.request, hs]

/-- From `s` to `t` the head of what is left is issued; the rest is left, or STOP after a NACK (R147 to R151). -/
def State.Plays (s t : State) : Prop :=
  ∃ p ps, s.request = some p ∧ s.remaining = p :: ps ∧
    t.remaining = if p = .ackchk ∧ s.env.pins.pAck = false then [.stop] else ps

/-- Any primitive but ACKCHK leaves the rest, whatever `p_ack` is. -/
theorem State.plays_of_remaining {u : State} {p : Instr} (hp : p ≠ .ackchk) (hq : s.request = some p)
    (hl : s.remaining = p :: u.remaining) (hc : u.SameContext t) : s.Plays t :=
  ⟨p, _, hq, hl, by rw [if_neg fun h => hp h.1, hc.remaining]⟩

/-- ACKCHK, completed in a state that differs from `s` in its environment alone. -/
theorem State.plays_checkAck {u : State} (h : s.OnCourse) (hs : s.st = .ackw) (hc : s.SameContext u)
    (hp : u.env.pins = s.env.pins) : s.Plays u.checkAck := by
  obtain ⟨ps, hl, hk⟩ := State.remaining_checkAck (h.congr hc) (hc.st.trans hs)
  exact ⟨.ackchk, ps, by simp [State.request, hs], hc.remaining.symm.trans hl, by simp [hk, hp]⟩

theorem State.completesPrimitive_iff :
    s.completesPrimitive = true ↔ s.st.requests = true ∧ s.env.pins.pDone = true := by
  simp [State.completesPrimitive]

/-- An edge that completes a primitive plays the head of what is left to issue (R136 to R146). -/
theorem Edge.plays (h : Edge s t) (ho : s.OnCourse) (hr : s.env.pins.rst = false) (hp : s.completesPrimitive = true) :
    s.Plays t := by
  obtain ⟨hq, hd⟩ := State.completesPrimitive_iff.1 hp
  cases h with
  | reset h => simp [h] at hr
  | hold _ hw =>
    rcases hw with ⟨hs, -⟩ | ⟨-, hn, -⟩
    · simp [hs, SeqState.requests] at hq
    · simp [hn] at hd
  | recover _ _ hw => simp [hq, hd] at hw
  | recoverCompleted _ _ _ _ hx => exact absurd hx ho.idx
  | init _ _ hs | write _ _ _ _ hs | read _ _ hs | reservedCmd _ _ hs => simp [hs, SeqState.requests] at hq
  | start _ _ hs =>
    exact State.plays_of_remaining (by simp) (by simp [State.request, hs]) (State.remaining_start ho hs)
      (by constructor <;> simp)
  | rstart _ _ hs =>
    exact State.plays_of_remaining (by simp) (by simp [State.request, hs]) (State.remaining_rstart hs)
      (by constructor <;> simp)
  | tx _ _ hs =>
    exact State.plays_of_remaining (by simp) (State.request_of_sends hs) (State.remaining_sends ho hs)
      (by constructor <;> simp)
  | ackchk _ _ hs =>
    obtain ⟨p, ps, hq, hl, hk⟩ := State.plays_checkAck
      (u := (s.showCodec s.env.codecRequest).completed .ackchk) ho hs (by constructor <;> simp) (by simp)
    exact ⟨p, ps, hq, hl, (State.sameContext_tick _).remaining.trans hk⟩
  | rx _ _ hs =>
    exact State.plays_of_remaining (by simp) (by simp [State.request, hs]) (State.remaining_din ho.idx hs)
      (by constructor <;> simp)
  | mack _ _ hs =>
    exact State.plays_of_remaining (by simp) (by simp [State.request, hs]) (State.remaining_mack ho hs)
      (by constructor <;> simp)
  | mnack _ _ hs =>
    exact State.plays_of_remaining (by simp) (by simp [State.request, hs]) (State.remaining_mnack hs)
      (by constructor <;> simp)
  | stop _ _ hs =>
    exact State.plays_of_remaining (by simp) (by simp [State.request, hs]) (State.remaining_stop hs)
      (by constructor <;> simp)

/-- An edge that neither completes a primitive nor accepts a command leaves what was left (R140, R141). -/
theorem Edge.waits (h : Edge s t) (ho : s.OnCourse) (hr : s.env.pins.rst = false)
    (hv : s.st = .idle → s.env.pins.cmdValid = false) (hp : s.completesPrimitive = false) :
    t.remaining = s.remaining := by
  cases h with
  | reset h => simp [h] at hr
  | hold => exact State.SameContext.remaining (by constructor <;> simp)
  | recover _ _ hw =>
    rcases hw with hq | ⟨-, -, hx⟩
    · rw [State.remaining_of_not_requests hq, State.remaining_of_not_requests rfl]
    · exact absurd hx ho.idx
  | recoverCompleted _ _ _ _ hx => exact absurd hx ho.idx
  | init _ _ hs hc | write _ _ _ _ hs hc | read _ _ hs hc | reservedCmd _ _ hs hc => simp [hv hs] at hc
  | start _ hd hs | rstart _ hd hs | ackchk _ hd hs | rx _ hd hs | mack _ hd hs | mnack _ hd hs | stop _ hd hs =>
    simp [State.completesPrimitive, SeqState.requests, hd, hs] at hp
  | tx _ hd hs => simp [State.completesPrimitive, SeqState.requests_of_sends hs, hd] at hp

/-! ### The primitive trace -/

/-- The entry of a completed primitive carries that primitive's word (R84, R152). -/
theorem State.traceEntry_word {p : Instr} (hq : s.request = some p) (hp : s.completesPrimitive = true) :
    s.traceEntry.map TraceEntry.word = [encode p] := by
  have hw : primWordOf s.st.pOp.toNat s.wdata.toNat = encode p := by
    rcases State.request_cases hq with ⟨hs, rfl⟩ | ⟨hs, rfl⟩ | ⟨hs, rfl⟩ | ⟨hs, rfl⟩ | ⟨hs, rfl⟩ | ⟨hs, rfl⟩ |
      ⟨hs, rfl⟩ | ⟨hs, rfl⟩
    case inr.inr.inl => rcases SeqState.sends_cases hs with hs | hs | hs <;> rw [hs] <;> rfl
    all_goals simp only [State.wdata, hs]; rfl
  simp [State.traceEntry, hp, TraceEntry.word, hw]

theorem State.traceEntry_of_not_completes (hp : s.completesPrimitive = false) : s.traceEntry = [] := by
  simp [State.traceEntry, hp]

theorem primTrace_succ (h : step s = .next t) (n : Nat) : primTrace (n + 1) s = s.traceEntry ++ primTrace n t := by
  simp [primTrace, h]

/-- A cycle without `p_done` issues nothing (R140). -/
theorem played_wait {i : Inputs} (hd : i.pDone = false) (plan : List Instr) (is : List Inputs) :
    played plan (i :: is) = played plan is := by
  cases plan with
  | nil => cases is <;> rfl
  | cons p ps => simp [played, hd]

@[simp] theorem played_nil (is : List Inputs) : played [] is = [] := by cases is <;> rfl
@[simp] theorem played_nil_inputs (plan : List Instr) : played plan [] = [] := by cases plan <;> rfl

/-- The trace of a state on course is what is left to issue, as the inputs answer it (R147 to R152). -/
theorem primTrace_eq_played (n : Nat) : ∀ s : State, s.OnCourse → s.env.attached = false →
    n ≤ s.env.upcoming.length + 1 → (∀ p ∈ s.inputsAhead n, p.rst = false ∧ p.cmdValid = false) →
    (primTrace n s).map TraceEntry.word = (played s.remaining (s.inputsAhead n)).map encode := by
  induction n with
  | zero => simp [primTrace, State.inputsAhead]
  | succ n ih =>
    intro s ho ha hn hi
    obtain ⟨t, ht⟩ := step_total s
    have he := step_edge ht
    obtain ⟨-, hu, hat⟩ := he.env_of_not_attached ha
    rw [he.inputsAhead_succ ha (by omega)] at hi ⊢
    obtain ⟨⟨hr, hv⟩, hi⟩ := List.forall_mem_cons.1 hi
    have ih := ih t (he.onCourse ho) hat (by rw [hu, List.length_tail]; omega) hi
    rw [primTrace_succ ht, List.map_append, ih]
    cases hp : s.completesPrimitive with
    | true =>
      obtain ⟨p, ps, hq, hl, hk⟩ := he.plays ho hr hp
      simp [State.traceEntry_word hq hp, hl, hk, played, (State.completesPrimitive_iff.1 hp).2]
    | false =>
      rw [State.traceEntry_of_not_completes hp, he.waits ho hr (fun _ => hv) hp]
      cases hq : s.st.requests with
      | true => rw [played_wait (by simpa [State.completesPrimitive, hq] using hp)]; rfl
      | false => simp [State.remaining_of_not_requests hq]

/-- Settles O55, by induction on the number of edges: each completion is the head of what is left, and every other edge
leaves it. -/
theorem edgesRefineTheTransaction : Obligations.EdgesRefineTheTransaction :=
  fun n s hs => primTrace_eq_played n s (State.onCourse_of_inv hs)

end Sys2Proof.Machine
end

section
/-! PROOFS. The registers of the block over one edge (spec/10_state.md R22 to R41): an edge without reset accepts a command,
takes a transition or keeps the registers, and what each of the three writes is said once. -/

namespace Sys2Proof.Machine

variable {s t : State}

/-! ### Which edges accept a command, and which take a transition -/

/-- The coming edge accepts some command (R131). -/
def State.takesCommand (s : State) : Bool := !s.env.pins.rst && s.st == .idle && s.env.pins.cmdValid

/-- The coming edge takes the transition of whatever state the block is in (R130). -/
def State.advances (s : State) : Bool := !s.env.pins.rst && s.completesPrimitive && s.idx != 3

theorem State.accepts_iff {i : Instr} :
    s.accepts i = true ↔ s.takesCommand = true ∧ decodeCmd s.env.pins.cmdWord.toNat = i := by
  simp [State.accepts, State.takesCommand]

theorem State.takesCommand_iff :
    s.takesCommand = true ↔ s.env.pins.rst = false ∧ s.st = .idle ∧ s.env.pins.cmdValid = true := by
  simp [State.takesCommand, and_assoc]

theorem State.takesCommand_eq_false (h : ∀ i, s.accepts i = false) : s.takesCommand = false := by
  have h := h (decodeCmd s.env.pins.cmdWord.toNat)
  rw [← Bool.not_eq_true, State.accepts_iff] at h
  simpa using h

theorem State.advancesFrom_eq (q : SeqState) : s.advancesFrom q = (s.st == q && s.advances) := by
  unfold State.advancesFrom State.advances
  cases s.env.pins.rst <;> cases s.st == q <;> rfl

theorem State.advances_eq_true (hr : s.env.pins.rst = false) (hd : s.env.pins.pDone = true)
    (hq : s.st.requests = true) (hx : s.idx ≠ 3) : s.advances = true := by
  simp [State.advances, State.completesPrimitive, hr, hd, hq]
  exact hx

theorem State.requests_of_advances (h : s.advances = true) : s.st.requests = true := by
  simp only [State.advances, State.completesPrimitive, Bool.and_eq_true] at h
  obtain ⟨⟨-, hq, -⟩, -⟩ := h
  exact hq

theorem State.advances_of_not_requests (h : s.st.requests = false) : s.advances = false := by
  simp [State.advances, State.completesPrimitive, h]

theorem State.advances_of_not_done (h : s.env.pins.pDone = false) : s.advances = false := by
  simp [State.advances, State.completesPrimitive, h]

theorem State.advances_of_idx_three (h : s.idx = 3) : s.advances = false := by
  simp [State.advances, h]

theorem State.takesCommand_of_busy (h : s.st ≠ .idle) : s.takesCommand = false := by
  simp [State.takesCommand, h]

theorem SeqState.ne_idle_of_requests {q : SeqState} (h : q.requests = true) : q ≠ .idle := by
  rintro rfl
  cases h

theorem State.requests_of_request {i : Instr} (h : s.request = some i) : s.st.requests = true := by
  rw [← s.request_isSome, h]
  rfl

/-! ### What a transition writes of each register -/

/-- The registers ACKW leaves as they are (R139). -/
@[simp] theorem State.checkAck_opR : s.checkAck.opR = s.opR := by rw [State.checkAck_eq]
@[simp] theorem State.checkAck_phase : s.checkAck.phase = s.phase := by rw [State.checkAck_eq]
@[simp] theorem State.checkAck_sent : s.checkAck.sent = s.sent := by rw [State.checkAck_eq]
@[simp] theorem State.checkAck_tx0 : s.checkAck.tx0 = s.tx0 := by rw [State.checkAck_eq]
@[simp] theorem State.checkAck_tx1 : s.checkAck.tx1 = s.tx1 := by rw [State.checkAck_eq]
@[simp] theorem State.checkAck_tx2 : s.checkAck.tx2 = s.tx2 := by rw [State.checkAck_eq]
@[simp] theorem State.checkAck_rd0 : s.checkAck.rd0 = s.rd0 := by rw [State.checkAck_eq]
@[simp] theorem State.checkAck_rd1 : s.checkAck.rd1 = s.rd1 := by rw [State.checkAck_eq]
@[simp] theorem State.checkAck_rd2 : s.checkAck.rd2 = s.rd2 := by rw [State.checkAck_eq]
@[simp] theorem State.checkAck_status : s.checkAck.status = s.status := by rw [State.checkAck_eq]
@[simp] theorem State.checkAck_done : s.checkAck.done = s.done := by rw [State.checkAck_eq]
@[simp] theorem State.checkAck_env : s.checkAck.env = s.env := by rw [State.checkAck_eq]
@[simp] theorem State.checkAck_fail : s.checkAck.fail = (s.fail || !s.env.pins.pAck) := by rw [State.checkAck_eq]

/-- An acknowledged data byte that is not the last moves `idx` on (R139). -/
theorem State.acknowledged_idx :
    s.acknowledged.idx = if s.sent = .data ∧ s.opR ≠ .init ∧ s.idx ≠ 2 then s.idx + 1 else s.idx := by
  rcases s.acknowledged_cases with ⟨hn, -, he⟩ | ⟨hn, -, he⟩ | ⟨hn, -, he⟩ | ⟨hn, -, he⟩ | ⟨hn, hd, he⟩ |
      ⟨hn, hd, he⟩ | ⟨hn, he⟩ <;> rw [he, hn]
  case inr.inr.inr.inr.inl => rw [if_neg fun ⟨_, ho, h2⟩ => hd.elim ho h2]
  case inr.inr.inr.inr.inr.inl => rw [if_pos ⟨rfl, not_or.1 hd⟩]
  all_goals rfl

theorem State.checkAck_idx :
    s.checkAck.idx =
      if s.env.pins.pAck = true ∧ s.sent = .data ∧ s.opR ≠ .init ∧ s.idx ≠ 2 then s.idx + 1 else s.idx := by
  rcases s.checkAck_cases with ⟨hp, he⟩ | ⟨hp, he⟩ <;> rw [he, hp]
  · simp
  · simp [State.acknowledged_idx]

theorem State.sentByte_eq :
    s.sentByte = if s.st = .addr then .addr else if s.st = .regsel then .reg else if s.st = .dout then .data
      else s.sent := by
  unfold State.sentByte
  cases s.st <;> rfl

@[simp] theorem State.receive_status (b : Byte) : (s.receive b).status = s.status := rfl
@[simp] theorem State.receive_done (b : Byte) : (s.receive b).done = s.done := rfl
@[simp] theorem State.receive_env (b : Byte) : (s.receive b).env = s.env := rfl
theorem State.receive_rd0 (b : Byte) : (s.receive b).rd0 = if s.idx = 0 then decSec b else s.rd0 := rfl
theorem State.receive_rd1 (b : Byte) : (s.receive b).rd1 = if s.idx = 1 then decMin b else s.rd1 := rfl
theorem State.receive_rd2 (b : Byte) : (s.receive b).rd2 = if s.idx = 2 then decHour b else s.rd2 := rfl

/-! ### The three kinds of edges without reset -/

/-- The edge writes no register but `st` and `done`: it holds, or recovers to IDLE (R39, R140, R141). -/
structure State.Keeps (s t : State) : Prop where
  st : t.st = s.st ∨ t.st = .idle
  opR : t.opR = s.opR
  phase : t.phase = s.phase
  sent : t.sent = s.sent
  idx : t.idx = s.idx
  fail : t.fail = s.fail
  tx0 : t.tx0 = s.tx0
  tx1 : t.tx1 = s.tx1
  tx2 : t.tx2 = s.tx2
  rd0 : t.rd0 = s.rd0
  rd1 : t.rd1 = s.rd1
  rd2 : t.rd2 = s.rd2
  status : t.status = s.status
  done : t.done = false

/-- What a transition writes of each register but `st` (R136 to R146). -/
structure State.Transition (s t : State) : Prop where
  opR : t.opR = s.opR
  phase : t.phase = (s.phase || s.st == .rstart)
  sent : t.sent = s.sentByte
  idx : t.idx = if s.st = .mack ∨
      (s.st = .ackw ∧ s.env.pins.pAck = true ∧ s.sent = .data ∧ s.opR ≠ .init ∧ s.idx ≠ 2) then s.idx + 1 else s.idx
  fail : t.fail = (s.fail || (s.st == .ackw && !s.env.pins.pAck))
  tx0 : t.tx0 = s.tx0
  tx1 : t.tx1 = s.tx1
  tx2 : t.tx2 = s.tx2
  rd0 : t.rd0 = if s.st = .din ∧ s.idx = 0 then decSec s.env.pins.pRdata else s.rd0
  rd1 : t.rd1 = if s.st = .din ∧ s.idx = 1 then decMin s.env.pins.pRdata else s.rd1
  rd2 : t.rd2 = if s.st = .din ∧ s.idx = 2 then decHour s.env.pins.pRdata else s.rd2
  status : t.status = if s.st = .stop then completionStatus s.fail else s.status
  done : t.done = (s.st == .stop)
  idle : s.st = .stop → t.st = .idle

/-- The command on the port is the reserved one (R134). -/
def State.offersReserved (s : State) : Bool := s.env.pins.cmdWord.toNat / 2 ^ 17 == 3

/-- What the acceptance of the command `i` writes of `tx`, and of the registers of the response (R131 to R135). -/
structure State.Acceptance (i : Instr) (s t : State) : Prop where
  init : ∀ u, i = .init u → t.opR = .init ∧ t.tx0 = 0x00 ∧ t.tx1 = s.tx1 ∧ t.tx2 = s.tx2
  write : ∀ h m v, i = .write h m v →
    t.opR = .write ∧ t.tx0 = encSec v ∧ t.tx1 = encMin m ∧ t.tx2 = encHour h
  other : (∀ u, i ≠ .init u) → (∀ h m v, i ≠ .write h m v) →
    t.opR ≠ .init ∧ t.tx0 = s.tx0 ∧ t.tx1 = s.tx1 ∧ t.tx2 = s.tx2
  rd0 : t.rd0 = s.rd0
  rd1 : t.rd1 = s.rd1
  rd2 : t.rd2 = s.rd2
  status : t.status = if s.offersReserved = true then .badCmd else s.status
  done : t.done = s.offersReserved
  idle : s.offersReserved = true → t.st = .idle

/-- An edge without reset keeps the registers, accepts a command or takes a transition (R130). -/
inductive State.Kind (s t : State) : Prop where
  | keeps (ha : s.takesCommand = false) (hv : s.advances = false) (hk : s.Keeps t)
  | accepts (i : Instr) (ha : s.takesCommand = true) (hi : decodeCmd s.env.pins.cmdWord.toNat = i)
      (hv : s.advances = false) (hk : s.Acceptance i t)
  | advances (ha : s.takesCommand = false) (hv : s.advances = true) (hk : s.Transition t)

theorem State.offersReserved_eq {k : Nat} (h : s.env.pins.cmdWord.toNat / 2 ^ 17 % 4 = k) :
    s.offersReserved = (k == 3) := by
  have hk : s.env.pins.cmdWord.toNat / 2 ^ 17 = k := by omega
  rw [State.offersReserved, hk]

theorem State.kind_of_acceptance {i : Instr} (hr : s.env.pins.rst = false) (hs : s.st = .idle)
    (hv : s.env.pins.cmdValid = true) (hi : decodeCmd s.env.pins.cmdWord.toNat = i) (hk : s.Acceptance i t) :
    s.Kind t :=
  .accepts i (State.takesCommand_iff.2 ⟨hr, hs, hv⟩) hi
    (State.advances_of_not_requests (by rw [hs]; rfl)) hk

theorem State.kind_of_transition (hr : s.env.pins.rst = false) (hd : s.env.pins.pDone = true)
    (hq : s.st.requests = true) (hx : s.idx ≠ 3) (hk : s.Transition t) : s.Kind t :=
  .advances (State.takesCommand_of_busy (SeqState.ne_idle_of_requests hq)) (State.advances_eq_true hr hd hq hx) hk

/-- Every edge without reset is of one of the three kinds. -/
theorem Edge.kind (h : Edge s t) (hr : s.env.pins.rst = false) : s.Kind t := by
  cases h with
  | reset h => simp [h] at hr
  | hold _ hw =>
    refine .keeps ?_ ?_ (by constructor <;> simp)
    · rcases hw with ⟨-, hv⟩ | ⟨hq, -, -⟩
      · simp [State.takesCommand, hv]
      · exact State.takesCommand_of_busy (SeqState.ne_idle_of_requests hq)
    · rcases hw with ⟨hs, -⟩ | ⟨-, hd, -⟩
      · exact State.advances_of_not_requests (by rw [hs]; rfl)
      · exact State.advances_of_not_done hd
  | recover _ hi hw =>
    refine .keeps (State.takesCommand_of_busy hi) ?_ (by constructor <;> simp)
    rcases hw with hq | ⟨-, hd, -⟩
    · exact State.advances_of_not_requests hq
    · exact State.advances_of_not_done hd
  | recoverCompleted i _ hq _ hx =>
    exact .keeps (State.takesCommand_of_busy (State.ne_idle_of_request hq)) (State.advances_of_idx_three hx)
      (by constructor <;> simp)
  | init u _ hs hv hi ho | write _ _ _ _ hs hv hi ho | read u _ hs hv hi ho | reservedCmd u _ hs hv hi ho =>
    refine State.kind_of_acceptance hr hs hv hi ?_
    constructor <;> simp [State.offersReserved_eq ho, hs]
  | tx _ hd hs hx =>
    refine State.kind_of_transition hr hd (SeqState.requests_of_sends hs) hx ?_
    rcases SeqState.sends_cases hs with hs | hs | hs <;> constructor <;> simp [hs]
  | ackchk _ hd hs hx =>
    refine State.kind_of_transition hr hd (by rw [hs]; rfl) hx ?_
    constructor <;> simp [hs, State.sentByte, State.checkAck_idx]
    congr -- one condition, decided by two terms
  | rx _ hd hs hx =>
    refine State.kind_of_transition hr hd (by rw [hs]; rfl) hx ?_
    constructor <;> simp [hs, State.sentByte, State.receive_rd0, State.receive_rd1, State.receive_rd2]
    all_goals congr
  | start _ hd hs hx | rstart _ hd hs hx | mack _ hd hs hx | mnack _ hd hs hx | stop _ hd hs hx =>
    refine State.kind_of_transition hr hd (by rw [hs]; rfl) hx ?_
    constructor <;> simp [hs, State.sentByte]

/-! ### The bus over one edge -/

theorem State.busHeldOk_iff :
    s.busHeldOk = true ↔ (s.st.requests = true → s.st ≠ .start → s.env.bus = .held) := by
  unfold State.busHeldOk
  cases s.st.requests <;> simp [or_iff_not_imp_left]

theorem State.busHeldOk_of_held (h : s.env.bus = .held) : s.busHeldOk = true :=
  State.busHeldOk_iff.2 fun _ _ => h

theorem State.busHeldOk_of_idle (h : s.st = .idle) : s.busHeldOk = true := by
  simp [State.busHeldOk, h, SeqState.requests]

theorem State.busHeldOk_of_start (h : s.st = .start) : s.busHeldOk = true := by
  simp [State.busHeldOk, h]

/-- Every edge keeps the bus held past START: only START takes it, only STOP frees it (R52). -/
theorem Edge.busHeldOk (h : Edge s t) (hb : s.busHeldOk = true) : t.busHeldOk = true := by
  rw [State.busHeldOk_iff] at hb
  cases h with
  | reset | recover | recoverCompleted | stop => exact State.busHeldOk_of_idle rfl
  | reservedCmd _ _ hs => exact State.busHeldOk_of_idle hs
  | init | write | read => exact State.busHeldOk_of_start rfl
  | hold => exact State.busHeldOk_iff.2 hb
  | start | rstart => exact State.busHeldOk_of_held (by simp)
  | tx _ _ hs =>
    have hst : s.st ≠ .start := by rintro h; rw [h] at hs; cases hs
    exact State.busHeldOk_of_held (hb (SeqState.requests_of_sends hs) hst)
  | ackchk _ _ hs | rx _ _ hs | mack _ _ hs | mnack _ _ hs =>
    have hheld : s.env.bus = .held := hb (by rw [hs]; rfl) (by simp [hs])
    exact State.busHeldOk_of_held (by simpa using hheld)

/-! ### The invariant over one edge -/

theorem State.inv_iff : s.inv = true ↔
    s.OnCourse ∧ s.status ≠ .unused11 ∧ s.rdLegal = true ∧ s.txLegal = true ∧
      (s.st ≠ .idle → s.opR = .init → s.tx0 = 0x00) ∧ (s.done = true → s.st = .idle) := by
  have hi : (s.st = .idle ∨ s.opR ≠ .init ∨ s.tx0 = 0x00) ↔ (s.st ≠ .idle → s.opR = .init → s.tx0 = 0x00) := by tauto
  have hd : (s.done = false ∨ s.st = .idle) ↔ (s.done = true → s.st = .idle) := by cases s.done <;> simp
  have ho : (s.contextOk = true ∧ s.idx ≠ 3) ↔ s.OnCourse := ⟨fun h => ⟨h.1, h.2⟩, fun h => ⟨h.context, h.idx⟩⟩
  rw [← hi, ← hd, ← ho]
  simp [State.inv, and_assoc, or_assoc]

/-- The decoders stay in their ranges (R33, R101 to R103). -/
theorem decSec_le (b : Byte) : (decSec b).toNat ≤ 45 := by
  have hb := b.isLt
  rw [decSec, BitVec.toNat_ofNat]
  exact (Nat.mod_le _ _).trans (by omega)

theorem decMin_le (b : Byte) : (decMin b).toNat ≤ 45 := decSec_le b

theorem decHour_le (b : Byte) : (decHour b).toNat ≤ 85 := by
  have hb := b.isLt
  rw [decHour, BitVec.toNat_ofNat]
  exact (Nat.mod_le _ _).trans (by omega)

/-- The encoders never set these bits (R110). -/
theorem encSec_bits : ∀ v : BitVec 6, encSec v &&& 0x30 = 0 := by decide
theorem encMin_bits : ∀ v : BitVec 6, encMin v &&& 0x30 = 0 := encSec_bits
theorem encHour_bits : ∀ v : BitVec 5, encHour v &&& 0x90 = 0 := by decide

theorem State.rdLegal_iff : s.rdLegal = true ↔ s.rd0.toNat ≤ 45 ∧ s.rd1.toNat ≤ 45 ∧ s.rd2.toNat ≤ 85 := by
  simp [State.rdLegal, and_assoc]

theorem State.txLegal_iff : s.txLegal = true ↔ s.tx0 &&& 0x30 = 0 ∧ s.tx1 &&& 0x30 = 0 ∧ s.tx2 &&& 0x90 = 0 := by
  simp [State.txLegal, and_assoc]

theorem State.Kind.rdLegal (h : s.Kind t) (hl : s.rdLegal = true) : t.rdLegal = true := by
  cases h with
  | keeps _ _ hk => rwa [State.rdLegal_congr hk.rd0 hk.rd1 hk.rd2]
  | accepts _ _ _ _ hk => rwa [State.rdLegal_congr hk.rd0 hk.rd1 hk.rd2]
  | advances _ _ hk =>
    obtain ⟨h0, h1, h2⟩ := State.rdLegal_iff.1 hl
    rw [State.rdLegal_iff, hk.rd0, hk.rd1, hk.rd2]
    refine ⟨?_, ?_, ?_⟩ <;> split
    exacts [decSec_le _, h0, decMin_le _, h1, decHour_le _, h2]

/-- INIT, WRITE, or one of the commands that write no `tx`. -/
theorem init_or_write_or_other (i : Instr) :
    (∃ u, i = .init u) ∨ (∃ h m v, i = .write h m v) ∨ ((∀ u, i ≠ .init u) ∧ ∀ h m v, i ≠ .write h m v) := by
  cases i <;> simp

theorem State.Acceptance.txLegal {i : Instr} (h : s.Acceptance i t) (hl : s.txLegal = true) : t.txLegal = true := by
  obtain ⟨l0, l1, l2⟩ := State.txLegal_iff.1 hl
  rw [State.txLegal_iff]
  rcases init_or_write_or_other i with ⟨u, hi⟩ | ⟨x, m, v, hi⟩ | ⟨hi, hw⟩
  · obtain ⟨-, h0, h1, h2⟩ := h.init u hi
    exact ⟨by simp [h0], by rwa [h1], by rwa [h2]⟩
  · obtain ⟨-, h0, h1, h2⟩ := h.write x m v hi
    rw [h0, h1, h2]
    exact ⟨encSec_bits v, encMin_bits m, encHour_bits x⟩
  · obtain ⟨-, h0, h1, h2⟩ := h.other hi hw
    exact ⟨by rwa [h0], by rwa [h1], by rwa [h2]⟩

theorem State.Kind.txLegal (h : s.Kind t) (hl : s.txLegal = true) : t.txLegal = true := by
  cases h with
  | keeps _ _ hk => rwa [State.txLegal_congr hk.tx0 hk.tx1 hk.tx2]
  | accepts _ _ _ _ hk => exact hk.txLegal hl
  | advances _ _ hk => rwa [State.txLegal_congr hk.tx0 hk.tx1 hk.tx2]

/-- A completion writes one of the three codes of R30. -/
theorem completionStatus_ne_unused11 (fail : Bool) : completionStatus fail ≠ .unused11 := by
  cases fail <;> decide

theorem State.Kind.status_ne_unused11 (h : s.Kind t) (hu : s.status ≠ .unused11) : t.status ≠ .unused11 := by
  cases h with
  | keeps _ _ hk => rwa [hk.status]
  | accepts _ _ _ _ hk => rw [hk.status]; split; exacts [by decide, hu]
  | advances _ _ hk => rw [hk.status]; split; exacts [completionStatus_ne_unused11 _, hu]

theorem State.Acceptance.initByte {i : Instr} (h : s.Acceptance i t) (ho : t.opR = .init) : t.tx0 = 0x00 := by
  rcases init_or_write_or_other i with ⟨u, hi⟩ | ⟨x, m, v, hi⟩ | ⟨hi, hw⟩
  · obtain ⟨-, h0, -⟩ := h.init u hi
    exact h0
  · obtain ⟨hop, -⟩ := h.write x m v hi
    simp [hop] at ho
  · obtain ⟨hop, -⟩ := h.other hi hw
    exact absurd ho hop

/-- INIT's data byte is 0x00 from acceptance on (R132). -/
theorem State.Kind.initByte (h : s.Kind t) (hb : s.st ≠ .idle → s.opR = .init → s.tx0 = 0x00)
    (hs : t.st ≠ .idle) (ho : t.opR = .init) : t.tx0 = 0x00 := by
  cases h with
  | keeps _ _ hk =>
    have hst : t.st = s.st := hk.st.resolve_right hs
    exact hk.tx0.trans (hb (hst ▸ hs) (hk.opR ▸ ho))
  | accepts _ _ _ _ hk => exact hk.initByte ho
  | advances _ hv hk =>
    exact hk.tx0.trans (hb (SeqState.ne_idle_of_requests (State.requests_of_advances hv)) (hk.opR ▸ ho))

/-- A completion ends in IDLE (R134, R146). -/
theorem State.Kind.idle_of_done (h : s.Kind t) (hd : t.done = true) : t.st = .idle := by
  cases h with
  | keeps _ _ hk => simp [hk.done] at hd
  | accepts _ _ _ _ hk => exact hk.idle (hk.done ▸ hd)
  | advances _ _ hk => exact hk.idle (by simpa [hk.done] using hd)

/-- Every edge without reset keeps the invariant. -/
theorem Edge.inv (h : Edge s t) (hr : s.env.pins.rst = false) (hi : s.inv = true) : t.inv = true := by
  obtain ⟨ho, hu, hrd, htx, hb, -⟩ := State.inv_iff.1 hi
  have hk := h.kind hr
  exact State.inv_iff.2
    ⟨h.onCourse ho, hk.status_ne_unused11 hu, hk.rdLegal hrd, hk.txLegal htx, hk.initByte hb, hk.idle_of_done⟩

/-- The registers of R41 meet the invariant. -/
theorem State.reset_inv : State.reset.inv = true := rfl

/-- A reset edge leads to the registers of R41. -/
theorem step_of_rst (h : step s = .next t) (hr : s.env.pins.rst = true) :
    t = (s.showCodec s.env.codecRequest).resetEdge.tick := by
  rw [step_reset hr] at h
  cases h
  rfl

/-- Settles O47: without reset each part of the invariant is kept by the three kinds of edges; a reset edge writes the
registers of R41, which meet it. -/
theorem everyEdgeKeepsTheInvariant : Obligations.EveryEdgeKeepsTheInvariant := by
  intro s t hi h
  cases hr : s.env.pins.rst with
  | true =>
    rw [step_of_rst h hr]
    exact State.reset_inv
  | false => exact (step_edge h).inv hr hi

/-! ### The response, the data and the context registers over one edge -/

/-- A completion edge is the acceptance of the reserved command or STOP's transition (R31). -/
theorem State.completionEdge_eq :
    s.completionEdge = (s.takesCommand && s.offersReserved || (s.st == .stop && s.advances)) := by
  rw [← State.advancesFrom_eq]
  unfold State.completionEdge State.takesCommand State.offersReserved State.advancesFrom
  cases s.env.pins.rst <;> simp

theorem State.Kind.done_eq (h : s.Kind t) : t.done = s.completionEdge := by
  rw [State.completionEdge_eq]
  cases h with
  | keeps ha hv hk => simp [ha, hv, hk.done]
  | accepts _ ha _ hv hk => simp [ha, hv, hk.done]
  | advances ha hv hk => simp [ha, hv, hk.done]

/-- Settles O35: each kind of edges writes `done` at completion alone, and a reset edge is no completion edge. -/
theorem doneIsOneExactlyAfterACompletionEdge : Obligations.DoneIsOneExactlyAfterACompletionEdge := by
  refine ⟨fun s t h => ⟨?_, rfl⟩, rfl⟩
  cases hr : s.env.pins.rst with
  | true => simp [step_of_rst h hr, State.completionEdge, hr, State.reset]
  | false => rw [((step_edge h).kind hr).done_eq]

/-- The code a completion edge writes: BAD_CMD in IDLE, and in STOP the one `fail` chooses (R30). -/
theorem State.Kind.status_eq (h : s.Kind t) :
    t.status = if s.completionEdge = true then
      if s.st = .idle then .badCmd else completionStatus s.fail else s.status := by
  rw [State.completionEdge_eq]
  cases h with
  | keeps ha hv hk => simp [ha, hv, hk.status]
  | accepts _ ha _ hv hk =>
    obtain ⟨-, hs, -⟩ := State.takesCommand_iff.1 ha
    simp [ha, hv, hs, hk.status]
  | advances ha hv hk =>
    have hs : s.st ≠ .idle := SeqState.ne_idle_of_requests (State.requests_of_advances hv)
    simp [ha, hv, hs, hk.status]

/-- Settles O36, each clause read off the code an edge writes. -/
theorem statusIsTheCodeOfTheLastCompletedCommand : Obligations.StatusIsTheCodeOfTheLastCompletedCommand := by
  refine ⟨⟨rfl, rfl, rfl⟩, rfl, fun s t h hr => ?_⟩
  rw [((step_edge h).kind hr).status_eq]
  refine ⟨fun hc => ?_, fun hc hs => ?_, fun hc hs => ?_⟩
  · simp [hc]
  · simp [hc, hs]
  · simp [hc, hs, completionStatus]

/-- Settles O37: `rd` is written by a transition from DIN, and by no other edge without reset. -/
theorem onlyReceivedBytesWriteTheReadRegisters : Obligations.OnlyReceivedBytesWriteTheReadRegisters := by
  refine ⟨⟨rfl, rfl, rfl⟩, fun s t h hr => ?_⟩
  simp only [State.advancesFrom_eq]
  cases (step_edge h).kind hr with
  | keeps _ hv hk => simp [hv, hk.rd0, hk.rd1, hk.rd2, State.outputs]
  | accepts _ _ _ hv hk => simp [hv, hk.rd0, hk.rd1, hk.rd2, State.outputs]
  | advances _ hv hk =>
    by_cases hs : s.st = .din <;> simp [hv, hs, hk.rd0, hk.rd1, hk.rd2, State.outputs]

/-- Settles O38: an edge that accepts nothing keeps `tx`, and one that accepts a command writes what that command writes. -/
theorem onlyInitAndWriteWriteTheTransmitRegisters : Obligations.OnlyInitAndWriteWriteTheTransmitRegisters := by
  intro s t h hr
  simp only [← Bool.not_eq_true, State.accepts_iff]
  cases (step_edge h).kind hr with
  | keeps ha _ hk => simp [ha, hk.tx0, hk.tx1, hk.tx2]
  | advances ha _ hk => simp [ha, hk.tx0, hk.tx1, hk.tx2]
  | accepts i ha hi _ hk =>
    simp only [ha, hi, true_and]
    exact ⟨fun hn hw => (hk.other hn hw).2, fun u hu => (hk.init u hu).2, fun x m v hw => (hk.write x m v hw).2⟩

/-- Settles O39: an edge that keeps the registers changes none of them, and a transition changes each from the states its
rule lists. -/
theorem contextChangesOnlyWhereListed : Obligations.ContextChangesOnlyWhereListed := by
  intro s t h hr hn
  simp only [State.advancesFrom_eq]
  cases (step_edge h).kind hr with
  | keeps _ hv hk => simp [hv, hk.opR, hk.phase, hk.sent, hk.idx, hk.fail]
  | accepts _ ha => simp [State.takesCommand_eq_false hn] at ha
  | advances _ hv hk => simp [hv, hk.opR, hk.phase, hk.sent, hk.idx, hk.fail, State.sentByte_eq]

/-- The same state with other context registers (R23 to R27). -/
def State.withContext (op : Op) (ph : Bool) (se : Sent) (ix : BitVec 2) (fl : Bool) (s : State) : State :=
  { s with opR := op, phase := ph, sent := se, idx := ix, fail := fl }

section
variable (op : Op) (ph : Bool) (se : Sent) (ix : BitVec 2) (fl : Bool)

/-- Acceptance writes the whole context before anything reads it (R36, R131). -/
theorem accepting_withContext {o : Op} {f : State → State} (hs : s.st = .idle) :
    accepting o f (s.withContext op ph se ix fl) = accepting o f s := by
  rw [accepting_idle hs, accepting_idle (s := s.withContext op ph se ix fl) hs]
  rfl

theorem exec_command_withContext (w : Nat) (hs : s.st = .idle) :
    exec (decodeCmd w) (s.withContext op ph se ix fl) = exec (decodeCmd w) s := by
  rcases decodeCmd_cases w with ⟨-, h⟩ | ⟨-, h⟩ | ⟨-, h⟩ | ⟨-, h⟩ <;> rw [h] <;>
    simp only [exec_init, exec_write, exec_read, exec_reservedCmd] <;>
    exact accepting_withContext op ph se ix fl hs

end

/-- Settles O43: the accepting edge runs the command, which forgets the context, and shows the codec's answer, which
never reads it. -/
theorem acceptanceForgetsTheOldContext : Obligations.AcceptanceForgetsTheOldContext := by
  intro s i op ph fl se ix ha
  obtain ⟨hr, hs, hv⟩ := State.takesCommand_iff.1 (State.accepts_iff.1 ha).1
  change step (s.withContext op ph se ix fl) = step s
  rw [step_command hr hs hv, step_command (s := s.withContext op ph se ix fl) hr hs hv]
  exact congrArg (Result.andThen · _)
    (exec_command_withContext (s := s.showCodec s.env.codecRequest) op ph se ix fl _ hs)

/-- Settles O49, edge by edge. -/
theorem everyEdgeKeepsTheBusHeldInATransaction : Obligations.EveryEdgeKeepsTheBusHeldInATransaction :=
  fun _ _ hb h => (step_edge h).busHeldOk hb

/-! ### Recovery to IDLE -/

/-- The completion of a request at `idx = 3` recovers (I5). -/
theorem exec_request_idx_three {i : Instr} (hx : s.idx = 3) (hq : s.request = some i) :
    exec i s = .next { s.completed i with st := .idle } := by
  rw [exec_request_eq hq, if_pos hx]

theorem step_request_idx_three {i : Instr} (hx : s.idx = 3) (hq : s.request = some i) (hr : s.env.pins.rst = false)
    (hd : s.env.pins.pDone = true) :
    step s = .next (State.tick { (s.showCodec s.env.codecRequest).completed i with st := .idle }) := by
  rw [step_request hq hr hd, exec_request_idx_three (s := s.showCodec s.env.codecRequest) hx hq]
  rfl

/-- Nothing but `st` and `done` of the block changes where an edge recovers. -/
theorem State.recoverEdge_tick_registers (i : Instr) (s : State) :
    { (s.showCodec i).recoverEdge.tick with cxSampled := s.cxSampled, env := s.env } =
      { s with st := .idle, done := false } := rfl

/-- Nor where the recovering edge completes the request. -/
theorem State.recoverCompleted_tick_registers (i p : Instr) (s : State) :
    { (State.tick { (s.showCodec i).completed p with st := .idle }) with cxSampled := s.cxSampled, env := s.env } =
      { s with st := .idle, done := false } := rfl

/-- Settles O27: a state with `idx = 3` requests nothing, waits, or completes its request, and recovers in each case. -/
theorem indexThreeRecoversToIdle : Obligations.IndexThreeRecoversToIdle := by
  refine ⟨fun s i hx hq => exec_request_idx_three hx hq, fun s hx hs hr => ?_, fun s hx hs => ?_⟩
  · cases hq : s.request with
    | none => exact ⟨_, step_recover hs hq hr, State.recoverEdge_tick_registers _ s⟩
    | some i =>
      cases hd : s.env.pins.pDone with
      | false => exact ⟨_, step_recover_waiting hq hr hd hx, State.recoverEdge_tick_registers _ s⟩
      | true => exact ⟨_, step_request_idx_three hx hq hr hd, State.recoverCompleted_tick_registers _ i s⟩
  · simp [State.request, State.wdata, State.txAt, hs, hx]

/-- Settles O31: an unused encoding requests nothing, so the edge is a recovery, which leaves the environment alone. -/
theorem unusedStateRecoversToIdle : Obligations.UnusedStateRecoversToIdle := by
  intro s hs hq hr
  have hn : s.request = none := by simpa [hq] using s.request_isSome
  exact ⟨hq, _, step_recover hs hn hr, State.recoverEdge_tick_registers _ s, rfl, rfl, rfl⟩

/-! ### Reset -/

/-- Settles O33: every register and output of the reset state, evaluated. -/
theorem resetStateHasTheListedValues : Obligations.ResetStateHasTheListedValues := by
  unfold Obligations.ResetStateHasTheListedValues
  decide

/-- Settles O46: the registers of R41 are in IDLE, where the invariants ask nothing of the context or the bus. -/
theorem invariantsHoldAtReset : Obligations.InvariantsHoldAtReset :=
  ⟨State.reset_inv, State.busHeldOk_of_idle rfl, rfl⟩

end Sys2Proof.Machine
end

section
/-! PROOFS. Memory and the reference target (spec/20_memory.md R51 to R54, R66 to R69): what a primitive and an edge make of
the environment, said once, and what T answers to the request after an edge. -/

namespace Sys2Proof.Machine

variable {s t : State}

/-! ### What an instruction makes of the environment -/

/-- Acceptance touches the block alone (R131). -/
theorem accepting_env {op : Op} {f : State → State} (h : accepting op f s = .next t) (hf : ∀ a, (f a).env = a.env) :
    t.env = s.env := by
  rcases accepting_cases h with ⟨-, rfl⟩ | ⟨-, rfl⟩
  · simp [hf]
  · rfl

/-- A primitive is heard where it is requested, and nowhere else (R142, R170). -/
theorem completing_env {i : Instr} {w : SeqState → Bool} {f : State → State} (h : completing i w f s = .next t)
    (hf : ∀ a, (f a).env = a.env) : t.env = if w s.st = true then s.env.hear i else s.env := by
  rcases completing_cases h with ⟨hw, -, rfl⟩ | ⟨hw, -, rfl⟩ | ⟨hw, -, -, rfl⟩ | ⟨hw, -, -, rfl⟩ <;> simp [hw, hf]

/-- A completed TX is heard in the states that send (R174). -/
theorem exec_tx_env {d : Byte} (h : exec (.tx d) s = .next t) :
    t.env = if s.st.sends = true then s.env.hearTx d else s.env := by
  rw [exec_tx] at h
  exact completing_env h fun _ => rfl

/-- The requested primitive is heard, at every value of `idx` (R170, I5). -/
theorem exec_request_env {i : Instr} (hq : s.request = some i) (h : exec i s = .next t) : t.env = s.env.hear i := by
  rcases exec_request_cases hq h with ⟨-, rfl⟩ | ⟨-, ⟨-, rfl, rfl⟩ | ⟨-, rfl, rfl⟩ | ⟨-, rfl, rfl⟩ | ⟨-, rfl, rfl⟩ |
    ⟨-, rfl, rfl⟩ | ⟨-, rfl, rfl⟩ | ⟨-, rfl, rfl⟩ | ⟨-, rfl, rfl⟩⟩
  case inr.inr.inr.inr.inl => simp -- ACKW
  all_goals rfl

/-- Of any instruction the environment hears all or nothing. -/
theorem exec_env {i : Instr} (h : exec i s = .next t) : t.env = s.env ∨ t.env = s.env.hear i := by
  have hp {w : SeqState → Bool} {f : State → State} (h : completing i w f s = .next t)
      (hf : ∀ a, (f a).env = a.env) : t.env = s.env ∨ t.env = s.env.hear i := by
    rw [completing_env h hf]
    split
    exacts [.inr rfl, .inl rfl]
  cases i with
  | init | write | read | reservedCmd =>
    simp only [exec_init, exec_write, exec_read, exec_reservedCmd] at h
    exact .inl (accepting_env h fun _ => rfl)
  | start | rstart | tx | rx | mack | mnack | stop =>
    simp only [exec_start, exec_rstart, exec_tx, exec_rx, exec_mack, exec_mnack, exec_stop] at h
    exact hp h fun _ => rfl
  | ackchk =>
    rw [exec_ackchk] at h
    exact hp h fun _ => State.checkAck_env
  | _ => cases h; exact .inl rfl

/-- Only a TX can write memory (R67, R68). -/
theorem Env.hear_regs {i : Instr} (e : Env) (hi : ∀ d, i ≠ .tx d) : (e.hear i).target.regs = e.target.regs := by
  cases i with
  | tx d => exact absurd rfl (hi d)
  | start | rstart | ackchk | rx | stop => simp
  | _ => rfl

/-! ### The one byte a TX stores -/

theorem Env.hearTx_readByte {e : Env} (d : Byte) {a : Nat} (h : e.storesAt ≠ some a) :
    Memory.readByte a (e.hearTx d).target.regs = Memory.readByte a e.target.regs := by
  rw [Env.hearTx_target]
  split
  · next ha =>
    rw [Env.storesAt, if_pos ha] at h
    exact Target.hearTx_readByte d e.target fun x hx hax => h (hax ▸ hx)
  · rfl

theorem Env.hearTx_readByte_stored {e : Env} (d : Byte) {a : Nat} (hw : Memory.wf e.target.regs = true)
    (h : e.storesAt = some a) : Memory.readByte a (e.hearTx d).target.regs = d := by
  rw [Env.hearTx_target]
  unfold Env.storesAt at h
  split at h
  · next ha =>
    rw [if_pos ha]
    exact Target.hearTx_readByte_stored d e.target hw h
  · cases h

/-- Settles O50: no instruction but a TX reaches memory, and a TX in a state that sends stores its byte where the target's
pointer points, or nowhere. -/
theorem onlyADataByteChangesMemory : Obligations.OnlyADataByteChangesMemory := by
  intro i s t h
  refine ⟨fun a ha => ?_, fun a d hw hi hs hst => ?_⟩
  · by_cases hi : ∃ d, i = .tx d
    · obtain ⟨d, rfl⟩ := hi
      rw [exec_tx_env h]
      split
      · next hs => exact Env.hearTx_readByte d (ha d rfl hs)
      · rfl
    · rcases exec_env h with he | he <;> rw [he]
      rw [Env.hear_regs s.env (not_exists.1 hi)]
  · subst hi
    rw [exec_tx_env h, if_pos hs]
    exact Env.hearTx_readByte_stored d hw hst

/-! ### The target over one edge -/

/-- A reset edge leaves T as it is, or T hears the request (R170, R232). -/
theorem State.resetEnv_target (s : State) :
    s.resetEnv.target = s.env.target ∨ ∃ i, s.resetEnv.target = (s.env.hear i).target := by
  unfold State.resetEnv
  split
  · unfold State.hearRequest
    cases s.request with
    | none => exact .inl rfl
    | some i => exact .inr ⟨i, rfl⟩
  · exact .inl rfl

/-- Every edge leaves T as it is, or T hears one primitive. -/
theorem Edge.target_cases (h : Edge s t) :
    t.env.target = s.env.target ∨ ∃ i, t.env.target = (s.env.hear i).target := by
  cases h with
  | reset => exact (s.showCodec _).resetEnv_target
  | hold | recover | init | write | read | reservedCmd => exact .inl rfl
  | recoverCompleted i | start | rstart | tx | rx | mack | mnack | stop => exact .inr ⟨_, rfl⟩
  | ackchk => exact .inr ⟨.ackchk, by simp⟩

/-- Settles O48: what T hears keeps the canonical form. -/
theorem everyEdgeKeepsMemoryCanonical : Obligations.EveryEdgeKeepsMemoryCanonical := by
  intro s t hw h
  rcases (step_edge h).target_cases with he | ⟨i, he⟩ <;> rw [he]
  · exact hw
  · exact Env.hear_wf s.env i hw

/-! ### What T makes of each byte it hears -/

section
variable {r : Target}

theorem Target.hearTx_address (d : Byte) (ha : r.addressNext = true) : r.hearTx d = r.hearAddress d := by
  simp [Target.hearTx, ha]

theorem Target.hearTx_select (d : Byte) (ha : r.addressNext = false) (hd : r.dir = .write) (hf : r.first = true) :
    r.hearTx d = r.hearSelect d := by
  simp [Target.hearTx, ha, hd, hf]

theorem Target.hearTx_data (d : Byte) (ha : r.addressNext = false) (hd : r.dir = .write) (hf : r.first = false) :
    r.hearTx d = r.hearData d := by
  simp [Target.hearTx, ha, hd, hf]

theorem Target.hearRx_read (hd : r.dir = .read) : r.hearRx = { r with ptr := r.ptr + 1 } := by
  simp [Target.hearRx, hd]

end

/-- A TX of any byte completes in the states that send (log entry 5). -/
theorem exec_tx_total (d : Byte) (hs : s.st.sends = true) : ∃ t, exec (.tx d) s = .next t := by
  rw [exec_tx]
  by_cases hx : s.idx = 3
  · exact ⟨_, completing_unused hs hx⟩
  · exact ⟨_, completing_wanted hs hx⟩

/-- The attached target hears a TX of any byte in the states that send (R67). -/
theorem exec_tx_target {r : Target} (d : Byte) (ha : s.env.attached = true) (hs : s.st.sends = true)
    (hr : s.env.target.hearTx d = r) : ∃ t, exec (.tx d) s = .next t ∧ t.env.target = r := by
  obtain ⟨t, ht⟩ := exec_tx_total d hs
  exact ⟨t, ht, by rw [exec_tx_env ht, if_pos hs, Env.hearTx_target, if_pos ha, hr]⟩

/-- The target hears the requested primitive (R67, R68). -/
theorem exec_request_target {i : Instr} {r : Target} (hq : s.request = some i) (hr : (s.env.hear i).target = r) :
    ∃ t, exec i s = .next t ∧ t.env.target = r := by
  obtain ⟨t, ht⟩ := exec_request hq
  exact ⟨t, ht, by rw [exec_request_env hq ht, hr]⟩

/-- Settles O51: each primitive is heard where its state requests it, a TX where a byte is sent, and T's rule for it
gives its fields. -/
theorem targetHearsThePrimitives : Obligations.TargetHearsThePrimitives := by
  intro s d ha
  have hq {q : SeqState} {i : Instr} {r : Target} (hi : State.request { s with st := q } = some i)
      (hr : (s.env.hear i).target = r) (hs : s.st = q) : ∃ t, exec i s = .next t ∧ t.env.target = r :=
    exec_request_target (by rw [← hi, ← hs]) hr
  refine ⟨hq rfl ?_, hq rfl ?_, fun hs hn => exec_tx_target d ha hs (Target.hearTx_address d hn),
    fun hs hn hd hf => exec_tx_target d ha hs (Target.hearTx_select d hn hd hf),
    fun hs hn hd hf => exec_tx_target d ha hs (Target.hearTx_data d hn hd hf),
    hq rfl ?_, fun hs hd => hq rfl ?_ hs, hq rfl rfl, hq rfl rfl, hq rfl rfl⟩
  · rw [Env.hear_start, Env.hearStart_target, if_pos ha]; rfl
  · rw [Env.hear_rstart, Env.hearRstart_target, if_pos ha]; rfl
  · rw [Env.hear_ackchk, Env.hearAckchk_target, if_pos ha]; rfl
  · rw [Env.hear_rx, Env.hearRx_target, if_pos ha, Target.hearRx_read hd]

/-! ### What T answers -/

/-- The inputs are a draw with T's answers in place (R69). -/
def State.Answered (s : State) : Prop := ∃ p, s.env.pins = s.env.answered s.st p

/-- Every edge leads to inputs that T has answered. -/
theorem Edge.answered (h : Edge s t) : t.Answered := by
  obtain ⟨e, -, he⟩ := h.env_tick
  exact ⟨e.supplied, by rw [he]; rfl⟩

/-- In IDLE there is nothing to answer. -/
theorem State.answered_of_idle (hs : s.st = .idle) : s.Answered :=
  ⟨s.env.pins, by simp [Env.answered, hs, SeqState.requests]⟩

section
variable (h : s.Answered) (ha : s.env.attached = true) (hq : s.st.requests = true)
include h ha hq

theorem State.Answered.pDone : s.env.pins.pDone = true := by
  obtain ⟨p, hp⟩ := h
  simp [hp, Env.answered, ha, hq]

theorem State.Answered.pAck {b : Bool} (hb : s.env.target.ackAnswer = some b) : s.env.pins.pAck = b := by
  obtain ⟨p, hp⟩ := h
  simp [hp, Env.answered, ha, hq, hb]

theorem State.Answered.pRdata (hd : s.env.target.dir = .read) :
    s.env.pins.pRdata = Memory.readByte s.env.target.ptr.toNat s.env.target.regs := by
  obtain ⟨p, hp⟩ := h
  simp [hp, Env.answered, ha, hq, Target.rxAnswer, hd]

end

/-- What T returns once it has a byte's acknowledgement to give (R67). -/
theorem Target.ackAnswer_of_byteAcked {r : Target} {b : Bool} (hb : r.byteAcked = some b) :
    r.ackAnswer = some (b && r.nackAt != some (r.ackCount + 1)) := by
  simp [Target.ackAnswer, hb]

/-- Settles O52: the edge leads to inputs that T has answered. -/
theorem targetAnswersTheRequest : Obligations.TargetAnswersTheRequest := by
  intro s t h ha hq
  have hw : t.Answered := (step_edge h).answered
  refine ⟨hw.pDone ha hq, fun b hb => ?_, hw.pRdata ha hq⟩
  rw [hw.pAck ha hq (Target.ackAnswer_of_byteAcked hb)]
  simp

end Sys2Proof.Machine
end

section
/-! PROOFS. WRITE and READ against the reference target (spec/41_transactions.md R148, R149; spec/20_memory.md R54, R67 to
R69). A run beside T is followed on states that differ from its own in their inputs alone: T answers every request at once,
so the inputs decide nothing but the absence of a reset. -/

namespace Sys2Proof.Machine

variable {s t u v w : State}

/-! ### Edges beside a target that answers -/

/-- The state `u` with the inputs of `a`, its count of edges and its record of the codec port. -/
def State.withInputs (u a : State) : State :=
  { u with
    cxSampled := a.cxSampled
    env := { u.env with pins := a.env.pins, upcoming := a.env.upcoming, edge := a.env.edge } }

/-- `s` is `u` but for what stands beside the block and T. -/
def State.Alike (u s : State) : Prop := ∃ a, s = u.withInputs a

theorem State.alike_refl (u : State) : u.Alike u := ⟨u, rfl⟩

section
variable (h : u.Alike s)
include h

theorem State.Alike.tick : u.Alike s.tick := by
  obtain ⟨a, rfl⟩ := h
  exact ⟨(u.withInputs a).tick, rfl⟩

theorem State.Alike.showCodec (i : Instr) : u.Alike (s.showCodec i) := by
  obtain ⟨a, rfl⟩ := h
  exact ⟨(u.withInputs a).showCodec i, rfl⟩

theorem State.Alike.request : s.request = u.request := by
  obtain ⟨a, rfl⟩ := h
  rfl

theorem State.Alike.attached : s.env.attached = u.env.attached := by
  obtain ⟨a, rfl⟩ := h
  rfl

end

/-- T is attached and has answered, and none of the next `n` edges is a reset. -/
structure State.Served (n : Nat) (s : State) : Prop where
  attached : s.env.attached = true
  answered : s.Answered
  length : n ≤ s.env.upcoming.length + 1
  ahead : ∀ p ∈ s.inputsAhead n, p.rst = false

theorem State.Served.rst {n : Nat} (h : s.Served (n + 1)) : s.env.pins.rst = false :=
  h.ahead _ (by simp [State.inputsAhead])

theorem Edge.served {n : Nat} (h : Edge s t) (hs : s.Served (n + 1)) : t.Served n := by
  obtain ⟨e, he, ht⟩ := h.env_tick
  obtain ⟨ha, -, hl, hr⟩ := hs
  have hat : t.env.attached = true := by rw [ht, Env.tick_attached, he.attached, ha]
  have htail : t.env.upcoming = s.env.upcoming.tail := by rw [ht, Env.tick_upcoming, he.upcoming]
  have hrst : t.env.pins.rst = s.env.supplied.rst := by rw [ht, Env.tick_pins, he.supplied]; rfl
  refine ⟨hat, h.answered, by rw [htail, List.length_tail]; omega, ?_⟩
  cases n with
  | zero => simp [State.inputsAhead]
  | succ n =>
    cases hu : s.env.upcoming with
    | nil => simp [hu] at hl
    | cons p ps =>
      simp only [State.inputsAhead, hu, List.take_succ_cons, List.forall_mem_cons] at hr
      simp only [State.inputsAhead, htail, hu, List.tail_cons, List.take_succ_cons, List.forall_mem_cons]
      exact ⟨by rw [hrst, Env.supplied, hu]; exact hr.2.1, hr.2.2⟩

/-! ### Runs beside a target that answers -/

theorem run_succ (h : step s = .next t) (n : Nat) : Host.Core.run core (n + 1) s = Host.Core.run core n t := by
  have h : core.step s = .next t := h
  simp only [Host.Core.run, h]

/-- A run goes on from where its first edges lead. -/
theorem run_add (k : Nat) : ∀ (j : Nat) {s t : State}, Host.Core.run core j s = .next t →
    Host.Core.run core (j + k) s = Host.Core.run core k t
  | 0, s, t, h => by cases h; rw [Nat.zero_add]
  | j + 1, s, t, h => by
    obtain ⟨a, ha⟩ := step_total s
    rw [run_succ ha] at h
    rw [Nat.add_right_comm, run_succ ha, run_add k j h]

/-- Beside T, `k` edges without reset lead from a state like `u` to one like `v`. -/
def State.Leads (k : Nat) (u v : State) : Prop :=
  ∀ n s, u.Alike s → s.Served (n + k) → ∃ t, Host.Core.run core k s = .next t ∧ v.Alike t ∧ t.Served n

theorem State.Leads.trans {j k : Nat} (h : u.Leads j v) (h' : v.Leads k w) : u.Leads (j + k) w := by
  intro n s hu hs
  obtain ⟨t, ht, hv, hst⟩ := h (n + k) s hu (by rwa [Nat.add_assoc, Nat.add_comm k])
  obtain ⟨r, hr, hw⟩ := h' n t hv hst
  exact ⟨r, (run_add k j ht).trans hr, hw⟩

/-! ### What each primitive leads to -/

/-- What the bus and T hear of a primitive does not depend on the inputs. -/
theorem State.withInputs_completed (a : State) (i : Instr) :
    (u.withInputs a).completed i = (u.completed i).withInputs a := by
  cases i <;> rfl

/-- Nor does the successor of an acknowledged byte (R139). -/
theorem State.withInputs_acknowledged (a : State) : (u.withInputs a).acknowledged = u.acknowledged.withInputs a := by
  unfold State.acknowledged State.withInputs
  cases u.sent with
  | noByte => rfl
  | addr => cases u.phase <;> rfl
  | reg => dsimp only; split <;> rfl
  | data => dsimp only; split <;> rfl

/-- One edge completes the requested primitive with T's answers. -/
theorem leads_of_completing {i : Instr} {wanted : SeqState → Bool} {f : State → State} (hq : u.request = some i)
    (hi : ∀ s, exec i s = completing i wanted f s) (hw : wanted u.st = true) (hx : u.idx ≠ 3)
    (hf : ∀ a, (u.withInputs a).Answered → u.env.attached = true →
      f ((u.completed i).withInputs a) = v.withInputs a) : u.Leads 1 v := by
  intro n s hu hs
  have hqs : s.request = some i := hu.request.trans hq
  have ha : u.env.attached = true := hu.attached.symm.trans hs.attached
  obtain ⟨a, hc⟩ := hu.showCodec s.env.codecRequest
  have hans : (u.withInputs a).Answered := by rw [← hc]; exact hs.answered
  have he : exec i (s.showCodec s.env.codecRequest) = .next (v.withInputs a) := by
    rw [hc, hi, completing_wanted (s := u.withInputs a) hw hx, State.withInputs_completed, hf a hans ha]
  have ht : step s = .next (v.withInputs a).tick := by
    rw [step_request hqs hs.rst (hs.answered.pDone hs.attached (State.requests_of_request hqs)), he]
    rfl
  exact ⟨_, (run_succ ht 0).trans rfl, State.Alike.tick ⟨a, rfl⟩, (step_edge ht).served hs⟩

theorem leads_start (hs : u.st = .start) (hx : u.idx ≠ 3) : u.Leads 1 { u.completed .start with st := .addr } :=
  leads_of_completing (by simp [State.request, hs]) exec_start (by simp [hs]) hx fun _ _ _ => rfl

theorem leads_rstart (hs : u.st = .rstart) (hx : u.idx ≠ 3) :
    u.Leads 1 { u.completed .rstart with phase := true, st := .addr } :=
  leads_of_completing (by simp [State.request, hs]) exec_rstart (by simp [hs]) hx fun _ _ _ => rfl

theorem leads_tx (hs : u.st.sends = true) (hx : u.idx ≠ 3) :
    u.Leads 1 { u.completed (.tx u.wdata) with sent := u.sentByte, st := .ackw } :=
  leads_of_completing (State.request_of_sends hs) (exec_tx _) hs hx fun _ _ _ => rfl

/-- Where T acknowledges, ACKW goes on (R139). -/
theorem leads_ackchk (hs : u.st = .ackw) (hx : u.idx ≠ 3) (hb : u.env.target.ackAnswer = some true) :
    u.Leads 1 (u.completed .ackchk).acknowledged := by
  refine leads_of_completing (by simp [State.request, hs]) exec_ackchk (by simp [hs]) hx fun a hw ha => ?_
  have hp : a.env.pins.pAck = true := hw.pAck ha (by rw [State.withInputs, hs]; rfl) hb
  rw [← State.withInputs_acknowledged, State.checkAck]
  exact if_pos hp

/-- DIN decodes the byte T's pointer points at (R68, R143). -/
theorem leads_rx (hs : u.st = .din) (hx : u.idx ≠ 3) (hd : u.env.target.dir = .read) :
    u.Leads 1 { (u.completed .rx).receive (Memory.readByte u.env.target.ptr.toNat u.env.target.regs) with
      st := if u.idx = 2 then .mnack else .mack } := by
  refine leads_of_completing (by simp [State.request, hs]) exec_rx (by simp [hs]) hx fun a hw ha => ?_
  have hp : a.env.pins.pRdata = Memory.readByte u.env.target.ptr.toNat u.env.target.regs :=
    hw.pRdata ha (by rw [State.withInputs, hs]; rfl) hd
  rw [← hp]
  rfl

theorem leads_mack (hs : u.st = .mack) (hx : u.idx ≠ 3) :
    u.Leads 1 { u.completed .mack with idx := u.idx + 1, st := .din } :=
  leads_of_completing (by simp [State.request, hs]) exec_mack (by simp [hs]) hx fun _ _ _ => rfl

theorem leads_mnack (hs : u.st = .mnack) (hx : u.idx ≠ 3) : u.Leads 1 { u.completed .mnack with st := .stop } :=
  leads_of_completing (by simp [State.request, hs]) exec_mnack (by simp [hs]) hx fun _ _ _ => rfl

theorem leads_stop (hs : u.st = .stop) (hx : u.idx ≠ 3) : u.Leads 1 (u.completed .stop).returnFromTransaction :=
  leads_of_completing (by simp [State.request, hs]) exec_stop (by simp [hs]) hx fun _ _ _ => rfl

/-! ### The milestones of a transaction beside T -/

/-- The address bytes carry the phase in bit 0 and the address above it (R91). -/
theorem addressByte_getLsbD_zero (a : Byte) (ph : Bool) : (addressByte a ph).getLsbD 0 = ph := by
  cases ph <;> simp [addressByte]

theorem addressByte_half (a : Byte) (ph : Bool) : (addressByte a ph).toNat / 2 = a.toNat / 2 := by
  have ha := a.isLt
  cases ph with
  | false =>
    simp only [addressByte, Bool.false_eq_true, if_false, BitVec.toNat_and, Nat.and_div_two]
    exact Nat.and_two_pow_sub_one_eq_mod _ 7 |>.trans (Nat.mod_eq_of_lt (by omega))
  | true => simp [addressByte, Nat.or_div_two]

/-- T is addressed by either address byte, and acknowledges it (R67). -/
theorem Target.hearTx_ownAddress {r : Target} (ph : Bool) (hn : r.addressNext = true) (hp : r.present = true) :
    r.hearTx (addressByte Config.addrByte ph) =
      { r with dir := if ph then .read else .write, first := true, addressNext := false, byteAcked := some true } := by
  rw [Target.hearTx_address _ hn, Target.hearAddress, addressByte_getLsbD_zero, addressByte_half, hp]
  simp

/-- T is attached, present and without a NACK, and `idx` holds no unused value. -/
structure State.Ready (s : State) : Prop where
  idx : s.idx ≠ 3
  attached : s.env.attached = true
  present : s.env.target.present = true
  nackAt : s.env.target.nackAt = none

theorem State.ready_of_idx_zero (hx : s.idx = 0) (ha : s.env.attached = true) (hp : s.env.target.present = true)
    (hn : s.env.target.nackAt = none) : s.Ready :=
  ⟨by rw [hx]; decide, ha, hp, hn⟩

/-- Beside a ready T, `k` edges without reset lead from `u` to `v`, and T is ready again. -/
def State.Proceeds (k : Nat) (u v : State) : Prop := u.Ready → u.Leads k v ∧ v.Ready

theorem State.Proceeds.trans {j k : Nat} (h : u.Proceeds j v) (h' : v.Proceeds k w) : u.Proceeds (j + k) w := by
  intro hu
  obtain ⟨hl, hv⟩ := h hu
  obtain ⟨hl', hw⟩ := h' hv
  exact ⟨hl.trans hl', hw⟩

theorem Env.heard_of_attached {e : Env} (f : Target → Target) (ha : e.attached = true) :
    e.heard f = { e with target := f e.target } := by
  simp [Env.heard, ha]

/-- After START (R136, R173). -/
def State.started (s : State) : State :=
  { s with st := .addr, done := false, env := { s.env with bus := .held, target := s.env.target.hearStart } }

/-- After RSTART (R137, R175). -/
def State.restarted (s : State) : State :=
  { s with
    phase := true, st := .addr, done := false
    env := { s.env with bus := .held, target := s.env.target.hearRstart } }

/-- After the address byte of the phase and its check (R67, R139). -/
def State.addressed (s : State) : State :=
  { s with
    sent := .addr, st := if s.phase = true then .din else .regsel, done := false
    env := { s.env with target :=
      { s.env.target with
        dir := if s.phase then .read else .write, first := true, addressNext := false, byteAcked := some true
        ackCount := s.env.target.ackCount + 1 } } }

/-- After the register select and its check (R67, R139). -/
def State.selected (s : State) : State :=
  { s with
    sent := .reg, st := if s.opR = .read then .rstart else .dout, done := false
    env := { s.env with target := (s.env.target.hearSelect Config.regSeconds).hearAckchk } }

/-- After data byte `idx` of a WRITE and its check (R54, R67, R139). -/
def State.stored (s : State) : State :=
  { s with
    sent := .data, st := if s.idx = 2 then .stop else .dout
    idx := if s.idx = 2 then s.idx else s.idx + 1, done := false
    env := { s.env with target := (s.env.target.hearData (s.txAt s.idx)).hearAckchk } }

/-- After byte `idx` of a READ, and MACK or, after the third, MNACK (R68, R143 to R145). -/
def State.received (s : State) : State :=
  { s.receive (Memory.readByte s.env.target.ptr.toNat s.env.target.regs) with
    st := if s.idx = 2 then .stop else .din, idx := if s.idx = 2 then s.idx else s.idx + 1, done := false
    env := { s.env with target := { s.env.target with ptr := s.env.target.ptr + 1 } } }

/-- After STOP (R146, R180). -/
def State.finished (s : State) : State := (s.completed .stop).returnFromTransaction

theorem State.proceeds_started (hs : u.st = .start) : u.Proceeds 1 u.started := by
  intro h
  have he : { u.completed .start with st := .addr } = u.started := by
    simp only [State.completed, Env.hear_start, Env.hearStart, Env.heard_of_attached _ h.attached]
    rfl
  exact ⟨he ▸ leads_start hs h.idx, h.idx, h.attached, h.present, h.nackAt⟩

theorem State.proceeds_restarted (hs : u.st = .rstart) : u.Proceeds 1 u.restarted := by
  intro h
  have he : { u.completed .rstart with phase := true, st := .addr } = u.restarted := by
    simp only [State.completed, Env.hear_rstart, Env.hearRstart, Env.heard_of_attached _ h.attached]
    rfl
  exact ⟨he ▸ leads_rstart hs h.idx, h.idx, h.attached, h.present, h.nackAt⟩

theorem State.proceeds_finished (hs : u.st = .stop) : u.Proceeds 1 u.finished :=
  fun h => ⟨leads_stop hs h.idx, h.idx, h.attached, h.present, h.nackAt⟩

/-- After a byte that T makes `r` of, and its acknowledged check (R138, R139). -/
def State.acked (r : Target) (s : State) : State :=
  State.acknowledged
    { s with sent := s.sentByte, st := .ackw, done := false, env := { s.env with target := r.hearAckchk } }

/-- The byte each sending state sends (R174). -/
theorem State.wdata_addr (hs : u.st = .addr) : u.wdata = addressByte Config.addrByte u.phase := by
  simp only [State.wdata, hs]
theorem State.wdata_regsel (hs : u.st = .regsel) : u.wdata = Config.regSeconds := by simp only [State.wdata, hs]
theorem State.wdata_dout (hs : u.st = .dout) : u.wdata = u.txAt u.idx := by simp only [State.wdata, hs]

/-- T hears the byte and acknowledges it in two edges. -/
theorem State.leads_acked {b : Byte} {r : Target} (hs : u.st.sends = true) (h : u.Ready) (hw : u.wdata = b)
    (hr : u.env.target.hearTx b = r) (hb : r.byteAcked = some true) (hn : r.nackAt = none) :
    u.Leads 2 (u.acked r) := by
  have htx : u.env.hearTx u.wdata = { u.env with target := r } := by
    rw [hw, Env.hearTx, Env.heard_of_attached _ h.attached, hr]
  have hack : Env.hearAckchk { u.env with target := r } = { u.env with target := r.hearAckchk } :=
    Env.heard_of_attached _ h.attached
  have ht := leads_tx hs h.idx
  simp only [State.completed, Env.hear_tx, htx] at ht
  have hk := ht.trans (leads_ackchk rfl h.idx (by simp [Target.ackAnswer_of_byteAcked hb, hn]))
  simp only [State.completed, Env.hear_ackchk, hack] at hk
  exact hk

theorem State.acked_addr (hs : u.st = .addr) (r : Target) :
    u.acked r = { u with
      sent := .addr, st := if u.phase = true then .din else .regsel, done := false
      env := { u.env with target := r.hearAckchk } } := by
  simp only [State.acked, State.acknowledged, State.sentByte, hs]
  cases u.phase <;> rfl

theorem State.acked_regsel (hs : u.st = .regsel) (r : Target) :
    u.acked r = { u with
      sent := .reg, st := if u.opR = .read then .rstart else .dout, done := false
      env := { u.env with target := r.hearAckchk } } := by
  simp only [State.acked, State.acknowledged, State.sentByte, hs]
  split <;> rfl

theorem State.acked_dout (hs : u.st = .dout) (ho : u.opR ≠ .init) (r : Target) :
    u.acked r = { u with
      sent := .data, st := if u.idx = 2 then .stop else .dout, idx := if u.idx = 2 then u.idx else u.idx + 1
      done := false, env := { u.env with target := r.hearAckchk } } := by
  simp only [State.acked, State.acknowledged, State.sentByte, hs, ho, false_or]
  split <;> rfl

theorem State.proceeds_addressed (hs : u.st = .addr) (ha : u.env.target.addressNext = true) :
    u.Proceeds 2 u.addressed := by
  intro h
  have hl := u.leads_acked (by rw [hs]; rfl) h (State.wdata_addr hs)
    (Target.hearTx_ownAddress u.phase ha h.present) rfl h.nackAt
  rw [State.acked_addr hs] at hl
  exact ⟨hl, h.idx, h.attached, h.present, h.nackAt⟩

theorem State.proceeds_selected (hs : u.st = .regsel) (ha : u.env.target.addressNext = false)
    (hd : u.env.target.dir = .write) (hf : u.env.target.first = true) : u.Proceeds 2 u.selected := by
  intro h
  have hl := u.leads_acked (by rw [hs]; rfl) h (State.wdata_regsel hs) (Target.hearTx_select _ ha hd hf) rfl h.nackAt
  rw [State.acked_regsel hs] at hl
  exact ⟨hl, h.idx, h.attached, h.present, h.nackAt⟩

/-- Data byte and received byte alike move `idx` on but after the third (R139, R144). -/
theorem nextIdx_ne_three {x : BitVec 2} (hx : x ≠ 3) : (if x = 2 then x else x + 1) ≠ 3 := by
  split
  · exact hx
  · next h2 => exact (idx_succ_inRange h2 hx).2.1

theorem State.proceeds_stored (hs : u.st = .dout) (ho : u.opR ≠ .init) (ha : u.env.target.addressNext = false)
    (hd : u.env.target.dir = .write) (hf : u.env.target.first = false) : u.Proceeds 2 u.stored := by
  intro h
  have hl := u.leads_acked (by rw [hs]; rfl) h (State.wdata_dout hs) (Target.hearTx_data _ ha hd hf) rfl h.nackAt
  rw [State.acked_dout hs ho] at hl
  exact ⟨hl, nextIdx_ne_three h.idx, h.attached, h.present, h.nackAt⟩

theorem State.proceeds_received (hs : u.st = .din) (hd : u.env.target.dir = .read) : u.Proceeds 2 u.received := by
  intro h
  have hrx := leads_rx hs h.idx hd
  have he : u.env.hearRx = { u.env with target := { u.env.target with ptr := u.env.target.ptr + 1 } } := by
    rw [Env.hearRx, Env.heard_of_attached _ h.attached, Target.hearRx_read hd]
  refine ⟨?_, nextIdx_ne_three h.idx, h.attached, h.present, h.nackAt⟩
  simp only [State.completed, Env.hear_rx, he] at hrx
  by_cases h2 : u.idx = 2
  · have hm := hrx.trans (leads_mnack (if_pos h2) h.idx)
    convert hm using 1
    simp only [State.received, if_pos h2]
    rfl
  · have hm := hrx.trans (leads_mack (if_neg h2) h.idx)
    convert hm using 1
    simp only [State.received, if_neg h2]
    rfl

/-! ### The three bytes of a time -/

/-- The pointer after two bytes and after three. -/
theorem add_one_add_one (r : Byte) : r + 1 + 1 = r + 2 := by rw [BitVec.add_assoc]; rfl
theorem add_one_add_one_add_one (r : Byte) : r + 1 + 1 + 1 = r + 3 := by rw [add_one_add_one, BitVec.add_assoc]; rfl

/-- The three offsets of a time are distinct, also where they wrap (R54). -/
theorem offsets_distinct (r : Byte) :
    r.toNat ≠ (r + 1).toNat ∧ r.toNat ≠ (r + 2).toNat ∧ (r + 1).toNat ≠ (r + 2).toNat := by
  bv_omega

/-- The three bytes of a time, stored from offset `r` on (R54). -/
def Memory.writeTime (r x y z : Byte) (m : Memory) : Memory :=
  Memory.writeByte (r + 2).toNat z (Memory.writeByte (r + 1).toNat y (Memory.writeByte r.toNat x m))

section
variable {m : Memory} (r x y z : Byte)

theorem Memory.readByte_writeTime (hm : Memory.wf m = true) :
    Memory.readByte r.toNat (Memory.writeTime r x y z m) = x ∧
    Memory.readByte (r + 1).toNat (Memory.writeTime r x y z m) = y ∧
    Memory.readByte (r + 2).toNat (Memory.writeTime r x y z m) = z := by
  obtain ⟨h01, h02, h12⟩ := offsets_distinct r
  have hm1 := Memory.wf_writeByte (v := x) r.isLt hm
  have hm2 := Memory.wf_writeByte (v := y) (r + 1).isLt hm1
  unfold Memory.writeTime
  refine ⟨?_, ?_, Memory.readByte_writeByte_same _ z hm2⟩
  · rw [Memory.readByte_writeByte_other z h02, Memory.readByte_writeByte_other y h01,
      Memory.readByte_writeByte_same _ x hm]
  · rw [Memory.readByte_writeByte_other z h12, Memory.readByte_writeByte_same _ y hm1]

theorem Memory.readByte_writeTime_other {a : Nat} (h0 : a ≠ r.toNat) (h1 : a ≠ (r + 1).toNat)
    (h2 : a ≠ (r + 2).toNat) :
    Memory.readByte a (Memory.writeTime r x y z m) = Memory.readByte a m := by
  rw [Memory.writeTime, Memory.readByte_writeByte_other z h2, Memory.readByte_writeByte_other y h1,
    Memory.readByte_writeByte_other x h0]

end

/-- Three data bytes store `tx[0..2]` from the pointer on (R54). -/
theorem State.stored_thrice (hx : u.idx = 0) : u.stored.stored.stored = { u with
    sent := .data, st := .stop, idx := 2, done := false
    env := { u.env with target :=
      { u.env.target with
        regs := Memory.writeTime u.env.target.ptr u.tx0 u.tx1 u.tx2 u.env.target.regs
        ptr := u.env.target.ptr + 3, byteAcked := some true, ackCount := u.env.target.ackCount + 1 + 1 + 1 } } } := by
  rw [Memory.writeTime, ← add_one_add_one, ← add_one_add_one_add_one]
  simp [State.stored, Target.hearData, Target.hearAckchk, State.txAt, hx]

/-- Three received bytes are decoded into `rd[0..2]`, read from the pointer on (R54, R143). -/
theorem State.received_thrice (hx : u.idx = 0) : u.received.received.received = { u with
    rd0 := decSec (Memory.readByte u.env.target.ptr.toNat u.env.target.regs)
    rd1 := decMin (Memory.readByte (u.env.target.ptr + 1).toNat u.env.target.regs)
    rd2 := decHour (Memory.readByte (u.env.target.ptr + 2).toNat u.env.target.regs)
    st := .stop, idx := 2, done := false
    env := { u.env with target := { u.env.target with ptr := u.env.target.ptr + 3 } } } := by
  rw [← add_one_add_one, ← add_one_add_one_add_one]
  simp [State.received, State.receive, hx]

/-! ### WRITE and READ -/

/-- The write phase of WRITE and READ: address and register select (R148, R149). -/
theorem State.proceeds_writePhase (hs : u.st = .start) (hp : u.phase = false) :
    u.Proceeds 5 u.started.addressed.selected :=
  (State.proceeds_started hs).trans <| (State.proceeds_addressed rfl rfl).trans <|
    State.proceeds_selected (by simp [State.addressed, State.started, hp]) rfl
      (by simp [State.addressed, State.started, hp]) rfl

/-- The three data bytes and STOP (R148). -/
theorem State.proceeds_dataPhase (hs : u.st = .dout) (ho : u.opR ≠ .init) (hx : u.idx = 0)
    (ha : u.env.target.addressNext = false) (hd : u.env.target.dir = .write) (hf : u.env.target.first = false) :
    u.Proceeds 7 u.stored.stored.stored.finished := by
  have h1 := State.proceeds_stored hs ho ha hd hf
  have h2 := h1.trans (State.proceeds_stored (by simp [State.stored, hx]) ho ha hd hf)
  have h3 := h2.trans (State.proceeds_stored (by simp [State.stored, hx]) ho ha hd hf)
  exact h3.trans (State.proceeds_finished (by rw [State.stored_thrice hx]))

/-- Three bytes read from T, and STOP (R149). -/
theorem State.proceeds_receivePhase (hs : u.st = .din) (hx : u.idx = 0) (hd : u.env.target.dir = .read) :
    u.Proceeds 7 u.received.received.received.finished := by
  have h1 := State.proceeds_received hs hd
  have h2 := h1.trans (State.proceeds_received (by simp [State.received, hx]) hd)
  have h3 := h2.trans (State.proceeds_received (by simp [State.received, hx]) hd)
  exact h3.trans (State.proceeds_finished (by rw [State.received_thrice hx]))

/-- The read phase: repeated START and read address, and then the bytes (R149). -/
theorem State.proceeds_readPhase (hs : u.st = .rstart) (hx : u.idx = 0) :
    u.Proceeds 10 u.restarted.addressed.received.received.received.finished :=
  ((State.proceeds_restarted hs).trans (State.proceeds_addressed rfl rfl)).trans
    (State.proceeds_receivePhase rfl hx rfl)

/-- The edge that accepts a command leads to the run that plays it. -/
theorem run_of_accepts {i : Instr} {k : Nat} (hc : s.accepts i = true)
    (hu : exec i (s.showCodec s.env.codecRequest) = .next u) (hv : u.Leads k v) (ha : s.env.attached = true)
    (hl : k ≤ s.env.upcoming.length) (hn : ∀ p ∈ s.env.upcoming.take k, p.rst = false) :
    ∃ t, Host.Core.run core (k + 1) s = .next t ∧ v.Alike t := by
  obtain ⟨ht, rfl⟩ := State.accepts_iff.1 hc
  obtain ⟨hr, hs, hcv⟩ := State.takesCommand_iff.1 ht
  have hstep : step s = .next u.tick := by rw [step_command hr hs hcv, hu]; rfl
  have hserved : s.Served (k + 1) := ⟨ha, State.answered_of_idle hs, Nat.succ_le_succ hl, by
    simpa [State.inputsAhead] using ⟨hr, hn⟩⟩
  obtain ⟨t, hrun, hvt, -⟩ := hv 0 u.tick u.alike_refl.tick
    (by rw [Nat.zero_add]; exact (step_edge hstep).served hserved)
  exact ⟨t, (run_succ hstep k).trans hrun, hvt⟩

/-- The block once it has accepted a WRITE (R131, R133). -/
def State.acceptedWrite (h : BitVec 5) (m v : BitVec 6) (s : State) : State :=
  { s.clearDone.acceptContext .write with tx0 := encSec v, tx1 := encMin m, tx2 := encHour h, st := .start }

/-- The block once it has accepted a READ (R131, R135). -/
def State.acceptedRead (s : State) : State := { s.clearDone.acceptContext .read with st := .start }

theorem exec_write_idle (h : BitVec 5) (m v : BitVec 6) (hs : s.st = .idle) :
    exec (.write h m v) s = .next (s.acceptedWrite h m v) :=
  (exec_write h m v s).trans (accepting_idle hs)

theorem exec_read_idle (x : BitVec 17) (hs : s.st = .idle) : exec (.read x) s = .next s.acceptedRead :=
  (exec_read x s).trans (accepting_idle hs)

/-- WRITE stores the time it encodes at `REG_SECONDS`, and completes (R54, R148). -/
theorem State.proceeds_write (h : BitVec 5) (m v : BitVec 6) (s : State) :
    ∃ w, (s.acceptedWrite h m v).Proceeds 12 w ∧ w.st = .idle ∧ w.done = true ∧ w.status = .ok ∧
      w.env.bus = .free ∧ w.env.target.ptr = Config.regSeconds + 3 ∧ w.env.target.regs =
        Memory.writeTime Config.regSeconds (encSec v) (encMin m) (encHour h) s.env.target.regs := by
  have ho : (s.acceptedWrite h m v).opR ≠ .init := by simp [State.acceptedWrite]
  refine ⟨_, (State.proceeds_writePhase (u := s.acceptedWrite h m v) rfl rfl).trans
    (State.proceeds_dataPhase rfl ho rfl rfl rfl rfl), ?_⟩
  rw [State.stored_thrice rfl]
  exact ⟨rfl, rfl, rfl, rfl, rfl, rfl⟩

/-- READ decodes the time at `REG_SECONDS` and completes (R54, R149). -/
theorem State.proceeds_read (s : State) :
    ∃ w, s.acceptedRead.Proceeds 15 w ∧ w.st = .idle ∧ w.done = true ∧ w.status = .ok ∧
      w.rd0 = decSec (Memory.readByte Config.regSeconds.toNat s.env.target.regs) ∧
      w.rd1 = decMin (Memory.readByte (Config.regSeconds + 1).toNat s.env.target.regs) ∧
      w.rd2 = decHour (Memory.readByte (Config.regSeconds + 2).toNat s.env.target.regs) ∧
      w.env.target.regs = s.env.target.regs ∧ w.env.bus = .free := by
  refine ⟨_, (State.proceeds_writePhase rfl rfl).trans (State.proceeds_readPhase rfl rfl), ?_⟩
  rw [State.received_thrice rfl]
  exact ⟨rfl, rfl, rfl, rfl, rfl, rfl, rfl, rfl⟩

/-- Settles O57: the accepted command proceeds to the stored time, and a stored time reads back, its three offsets
distinct. -/
theorem writeReachesTheTarget : Obligations.WriteReachesTheTarget := by
  intro s h m v hc ha hp hn hm hl hr
  obtain ⟨-, hs, -⟩ := State.takesCommand_iff.1 (State.accepts_iff.1 hc).1
  obtain ⟨w, hw, hst, hd, hok, hb, hptr, hregs⟩ := (s.showCodec s.env.codecRequest).proceeds_write h m v
  have hlead := (hw (State.ready_of_idx_zero rfl ha hp hn)).1
  obtain ⟨_, ht, a, rfl⟩ := run_of_accepts hc (exec_write_idle h m v hs) hlead ha hl hr
  have hregs : (w.withInputs a).env.target.regs = Memory.writeTime _ _ _ _ s.env.target.regs := hregs
  obtain ⟨h0, h1, h2⟩ := Memory.readByte_writeTime Config.regSeconds (encSec v) (encMin m) (encHour h) hm
  rw [← hregs] at h0 h1 h2
  refine ⟨_, ht, hst, hd, hok, hb, hptr, h0, h1, h2, fun x hx0 hx1 hx2 => ?_⟩
  rw [hregs, Memory.readByte_writeTime_other _ _ _ _ hx0 hx1 hx2]

/-- Settles O58: the accepted command proceeds to the decoded time. -/
theorem readReturnsTheTargetsBytes : Obligations.ReadReturnsTheTargetsBytes := by
  intro s x hc ha hp hn hl hr
  obtain ⟨-, hs, -⟩ := State.takesCommand_iff.1 (State.accepts_iff.1 hc).1
  obtain ⟨w, hw, hpost⟩ := (s.showCodec s.env.codecRequest).proceeds_read
  have hlead := (hw (State.ready_of_idx_zero rfl ha hp hn)).1
  obtain ⟨_, ht, a, rfl⟩ := run_of_accepts hc (exec_read_idle x hs) hlead ha hl hr
  exact ⟨_, ht, hpost⟩

end Sys2Proof.Machine
end

section
/-! PROOFS. Decoding and encoding undo each other on the well-formed words (spec/30_encoding.md R80 to R92): what a
well-formed word reads as, the word it comes from, the fields a command uses, and the word of a request. -/

namespace Sys2Proof

open Machine

/-! ### Fields -/

theorem toNat_field (lo k w : Nat) : (field lo k w).toNat = w / 2 ^ lo % 2 ^ k := BitVec.toNat_ofNat _ _

theorem field_eq {lo k w : Nat} {x : BitVec k} (h : w / 2 ^ lo % 2 ^ k = x.toNat) : field lo k w = x :=
  BitVec.eq_of_toNat_eq ((toNat_field lo k w).trans h)

/-- The lowest field of a word is what stands below its opcode. -/
theorem field_below {k : Nat} (op : Nat) (x : BitVec k) : field 0 k (op * 2 ^ k + x.toNat) = x :=
  field_eq (by rw [pow_zero, Nat.div_one, Nat.mul_comm, Nat.mul_add_mod, Nat.mod_eq_of_lt x.isLt])

/-- The opcode of a word stands above its other bits. -/
theorem opcode_above {k low : Nat} (op : Nat) (h : low < 2 ^ k) : (op * 2 ^ k + low) / 2 ^ k = op := by
  rw [Nat.mul_comm, Nat.mul_add_div (Nat.two_pow_pos k), Nat.div_eq_of_lt h, Nat.add_zero]

/-- A field of a machine word is its bit slice (R9). -/
theorem field_eq_extractLsb' {n : Nat} (lo k : Nat) (w : BitVec n) : field lo k w.toNat = w.extractLsb' lo k := by
  rw [field, BitVec.extractLsb', Nat.shiftRight_eq_div_pow]

/-! ### The two checks of the decoder -/

theorem PortWord.wf_cmd19_iff {w : Nat} : (PortWord.cmd19 w).wf = true ↔ w < 2 ^ 19 := by
  simp [PortWord.wf, PortWord.fits, PortWord.wdataLegal]

theorem PortWord.wf_codec11_iff {w : Nat} : (PortWord.codec11 w).wf = true ↔ w < 2 ^ 11 := by
  simp [PortWord.wf, PortWord.fits, PortWord.wdataLegal]

theorem PortWord.wf_prim11_iff {w : Nat} :
    (PortWord.prim11 w).wf = true ↔ w < 2 ^ 11 ∧ (w / 2 ^ 8 = 2 ∨ w % 2 ^ 8 = 0) := by
  simp [PortWord.wf, PortWord.fits, PortWord.wdataLegal]

/-- What the port's own decoder reads from a word that passes both checks (R92). -/
def PortWord.instr : PortWord → Instr
  | .cmd19 w => decodeCmd w
  | .codec11 w => decodeCodec w
  | .prim11 w => decodePrim w

theorem decode_of_wf {p : PortWord} (h : p.wf = true) : decode p = .ok p.instr := by
  obtain ⟨hf, hl⟩ := Bool.and_eq_true_iff.1 h
  cases p <;> simp [decode, hf, hl, PortWord.instr]

/-- The decoder's three answers, by the checks (R84, R92). -/
theorem decode_cases (p : PortWord) :
    (p.fits = false ∧ decode p = .error .tooWide) ∨
    (p.fits = true ∧ p.wdataLegal = false ∧ decode p = .error .wdataNotZero) ∨
    (p.fits = true ∧ p.wdataLegal = true ∧ decode p = .ok p.instr) := by
  cases hf : p.fits with
  | false => exact .inl ⟨rfl, if_pos hf⟩
  | true =>
    cases hl : p.wdataLegal with
    | false => exact .inr (.inl ⟨rfl, rfl, by simp [decode, hf, hl]⟩)
    | true => exact .inr (.inr ⟨rfl, rfl, decode_of_wf (Bool.and_eq_true_iff.2 ⟨hf, hl⟩)⟩)

theorem decode_eq_ok_iff {p : PortWord} {i : Instr} : decode p = .ok i ↔ p.wf = true ∧ p.instr = i := by
  rcases decode_cases p with ⟨hf, hd⟩ | ⟨hf, hl, hd⟩ | ⟨hf, hl, hd⟩
  · simp [hd, hf, PortWord.wf]
  · simp [hd, hl, PortWord.wf]
  · simp [hd, hf, hl, PortWord.wf]

/-! ### Every instruction has a well-formed word, and is read from it -/

open Laws in
theorem encode_wf : ∀ i : Instr, (encode i).wf = true
  | .init u => EncodeWf.init u
  | .write h m s => EncodeWf.write h m s
  | .read u => EncodeWf.read u
  | .reservedCmd u => EncodeWf.reservedCmd u
  | .decSec b => EncodeWf.decSec b
  | .decMin b => EncodeWf.decMin b
  | .decHour b => EncodeWf.decHour b
  | .codecReserved011 u => EncodeWf.codecReserved011 u
  | .encSec u v => EncodeWf.encSec u v
  | .encMin u v => EncodeWf.encMin u v
  | .encHour u v => EncodeWf.encHour u v
  | .codecReserved111 u => EncodeWf.codecReserved111 u
  | .start => EncodeWf.start
  | .rstart => EncodeWf.rstart
  | .tx d => EncodeWf.tx d
  | .ackchk => EncodeWf.ackchk
  | .rx => EncodeWf.rx
  | .mack => EncodeWf.mack
  | .mnack => EncodeWf.mnack
  | .stop => EncodeWf.stop

/-- The opcode of the word chooses the instruction back, and each field of it holds its operand (R80, R84, R87). -/
theorem instr_encode (i : Instr) : (encode i).instr = i := by
  cases i with
  | init u | read u | reservedCmd u =>
    rw [encode, cmdWordOf, PortWord.instr, decodeCmd, opcode_above _ u.isLt, field_below]
    rfl
  | write h m s =>
    rw [encode, cmdWordOf, PortWord.instr, decodeCmd, opcode_above _ (by omega), field_eq (x := h) (by omega),
      field_eq (x := m) (by omega), field_eq (x := s) (by omega)]
    rfl
  | decSec b | decMin b | decHour b | codecReserved011 b | codecReserved111 b =>
    rw [encode, codecWordOf, PortWord.instr, decodeCodec, opcode_above _ b.isLt, field_below]
    rfl
  | encSec u v | encMin u v | encHour u v =>
    rw [encode, codecWordOf, PortWord.instr, decodeCodec, opcode_above _ (by omega), field_eq (x := u) (by omega),
      field_eq (x := v) (by omega)]
    rfl
  | tx d =>
    rw [encode, primWordOf, PortWord.instr, decodePrim, opcode_above _ d.isLt, field_below]
    rfl
  | start | rstart | ackchk | rx | mack | mnack | stop => rfl

/-- Settles O1: the word of an instruction passes both checks, and the instruction is read from it. -/
theorem decodeOfEncodeIsTheInstruction : Obligations.DecodeOfEncodeIsTheInstruction := fun i => by
  rw [decode_of_wf (encode_wf i), instr_encode]

/-! ### Every well-formed word is the word of what it reads as -/

theorem encode_decodeCmd {w : Nat} (hw : w < 2 ^ 19) : encode (decodeCmd w) = .cmd19 w := by
  rcases decodeCmd_cases w with ⟨ho, hd⟩ | ⟨ho, hd⟩ | ⟨ho, hd⟩ | ⟨ho, hd⟩ <;> rw [hd] <;>
    simp only [encode, cmdWordOf, toNat_field, PortWord.cmd19.injEq] <;> omega

theorem encode_decodeCodec {w : Nat} (hw : w < 2 ^ 11) : encode (decodeCodec w) = .codec11 w := by
  rcases decodeCodec_cases w with ⟨ho, hd⟩ | ⟨ho, hd⟩ | ⟨ho, hd⟩ | ⟨ho, hd⟩ | ⟨ho, hd⟩ | ⟨ho, hd⟩ | ⟨ho, hd⟩ |
      ⟨ho, hd⟩ <;> rw [hd] <;>
    simp only [encode, codecWordOf, toNat_field, PortWord.codec11.injEq] <;> omega

/-- Where `p_wdata` is legal its byte is an operand of TX or zero (R84; log entry 7). -/
theorem encode_decodePrim {w : Nat} (hw : w < 2 ^ 11) (hl : w / 2 ^ 8 = 2 ∨ w % 2 ^ 8 = 0) :
    encode (decodePrim w) = .prim11 w := by
  rcases decodePrim_cases w with ⟨ho, hd⟩ | ⟨ho, hd⟩ | ⟨ho, hd⟩ | ⟨ho, hd⟩ | ⟨ho, hd⟩ | ⟨ho, hd⟩ | ⟨ho, hd⟩ |
      ⟨ho, hd⟩ <;> rw [hd] <;>
    simp only [encode, primWordOf, toNat_field, PortWord.prim11.injEq, Nat.zero_mul] <;> omega

theorem encode_instr {p : PortWord} (h : p.wf = true) : encode p.instr = p := by
  cases p with
  | cmd19 w => exact encode_decodeCmd (PortWord.wf_cmd19_iff.1 h)
  | codec11 w => exact encode_decodeCodec (PortWord.wf_codec11_iff.1 h)
  | prim11 w =>
    obtain ⟨hw, hl⟩ := PortWord.wf_prim11_iff.1 h
    exact encode_decodePrim hw hl

/-- Settles O2: what decodes is well formed, and a well-formed word is the word of what it reads as. -/
theorem encodeOfDecodeIsTheWord : Obligations.EncodeOfDecodeIsTheWord := by
  intro p i h
  obtain ⟨hw, rfl⟩ := decode_eq_ok_iff.1 h
  exact encode_instr hw

/-- Settles O4: the decoder's three answers exclude each other, and so do the checks they stand for. -/
theorem illFormedWordsAreRefusedByName : Obligations.IllFormedWordsAreRefusedByName := by
  intro p
  rcases decode_cases p with ⟨hf, hd⟩ | ⟨hf, hl, hd⟩ | ⟨hf, hl, hd⟩
  · simp [hd, hf, PortWord.wf]
  · simp [hd, hf, hl, PortWord.wf]
  · simp [hd, hf, hl]

end Sys2Proof

namespace Sys2Proof.Machine

variable {s : State}

/-! ### The operand fields of a command -/

/-- INIT, READ and the reserved op run the same whatever stands in bits 16:0 (R82). -/
theorem exec_decodeCmd_of_same_op {v w : Nat} (s : State) (he : v / 2 ^ 17 % 4 = w / 2 ^ 17 % 4)
    (hw : w / 2 ^ 17 % 4 ≠ 1) : exec (decodeCmd v) s = exec (decodeCmd w) s := by
  rw [decodeCmd, decodeCmd, he]
  split
  · rfl
  · next h => exact absurd h hw
  · rfl
  · rfl

theorem decodeCmd_of_write {w : BitVec 19} (h : w.toNat / 2 ^ 17 % 4 = 1) :
    decodeCmd w.toNat = .write (w.extractLsb' 12 5) (w.extractLsb' 6 6) (w.extractLsb' 0 6) := by
  simp only [decodeCmd, h, field_eq_extractLsb']

/-- Settles O5: WRITE's operands are slices of the word, and no other command's meaning reads its operand. -/
theorem commandsUseTheirOperandFields : Obligations.CommandsUseTheirOperandFields := by
  refine ⟨fun w s hw => ?_, fun v w s he hw => exec_decodeCmd_of_same_op s (by omega) (by omega)⟩
  have hd := decodeCmd_of_write (w := w) (by omega)
  exact ⟨hd, fun hs => ⟨_, hd ▸ exec_write_idle _ _ _ hs, rfl, rfl, rfl⟩⟩

/-! ### The word of a request -/

/-- TX is the primitive of the states that send (R171). -/
theorem SeqState.pOp_eq_tx_iff {q : SeqState} : q.pOp = 0b010 ↔ q.sends = true := by
  cases q <;> decide

/-- No other state shows a byte (R174). -/
theorem State.wdata_of_not_sends (h : s.st.sends = false) : s.wdata = 0x00 := by
  unfold State.wdata
  cases hs : s.st <;> simp [hs, SeqState.sends] at h ⊢

theorem SeqState.pOp_of_not_requests {q : SeqState} (h : q.requests = false) : q.pOp = 0b000 := by
  cases q <;> simp [SeqState.requests] at h <;> rfl

theorem SeqState.not_sends_of_not_requests {q : SeqState} (h : q.requests = false) : q.sends = false := by
  cases hq : q.sends with
  | false => rfl
  | true => rw [SeqState.requests_of_sends hq] at h; cases h

/-- A request is `p_op` over `p_wdata` (R84, R171). -/
theorem State.encode_request {i : Instr} (h : s.request = some i) :
    encode i = primWordOf s.st.pOp.toNat s.wdata.toNat := by
  rcases State.request_cases h with ⟨hs, rfl⟩ | ⟨hs, rfl⟩ | ⟨hs, rfl⟩ | ⟨hs, rfl⟩ | ⟨hs, rfl⟩ | ⟨hs, rfl⟩ |
    ⟨hs, rfl⟩ | ⟨hs, rfl⟩
  case inr.inr.inl => rw [SeqState.pOp_eq_tx_iff.2 hs]; rfl
  all_goals rw [State.wdata_of_not_sends (by rw [hs]; rfl), hs]; rfl

/-- Settles O45: a request is its state's primitive with the byte the state sends, and only the states that send show a
byte. -/
theorem requestIsItsWord : Obligations.RequestIsItsWord := by
  intro s
  refine ⟨fun i hq => ⟨State.requests_of_request hq, State.encode_request hq⟩, fun hq => ?_, fun hq => ?_,
    fun hs => ?_, State.wdata_regsel, fun hs => ⟨fun hx => ?_, fun hx => ?_, fun hx => ?_⟩⟩
  · have hq : s.st.requests = false := hq
    exact ⟨by simpa [hq] using s.request_isSome, SeqState.pOp_of_not_requests hq,
      State.wdata_of_not_sends (SeqState.not_sends_of_not_requests hq)⟩
  · exact State.wdata_of_not_sends (Bool.eq_false_iff.2 (mt SeqState.pOp_eq_tx_iff.2 hq))
  · refine (State.wdata_addr hs).trans ?_
    cases s.phase <;> rfl
  all_goals
    refine (State.wdata_dout hs).trans ?_
    rw [hx]
    rfl

end Sys2Proof.Machine
end

section
/-! PROOFS. The codec port beside the sequencer (spec/40_codec.md R100, R108): the port's value by `cx_fn`, and the edges of
two states that differ in the codec inputs and the record of the port alone. -/

namespace Sys2Proof.Machine

variable {s : State}

/-! ### The port's table -/

/-- Bits 10:8 of the port's word are `cx_fn` (R87). -/
theorem codecWord_fn (fn : BitVec 3) (x : Byte) : (fn ++ x).toNat / 2 ^ 8 % 8 = fn.toNat := by
  rw [codecWord_toNat, opcode_above _ x.isLt, Nat.mod_eq_of_lt fn.isLt]

/-- The operand fields of the port's word are slices of `cx_in` (R87). -/
theorem field_codecWord {lo k : Nat} (fn : BitVec 3) (x : Byte) (h : lo + k ≤ 8) :
    field lo k (fn ++ x).toNat = x.extractLsb' lo k := by
  rw [field_eq_extractLsb', BitVec.extractLsb'_append_eq_of_add_le h]

/-! ### The sequencer does not read the port -/

section
variable (fn : BitVec 3) (x c : Byte)

/-- The same state with other codec inputs and another record of the port. -/
def State.withCodec (s : State) : State :=
  { s with
    cxSampled := c
    env := { s.env with pins := { s.env.pins with cxFn := fn, cxIn := x } } }

theorem State.withCodec_edgeAction (s : State) : (s.withCodec fn x c).edgeAction = s.edgeAction := rfl

/-- Once time has passed, only the record is left of the difference. -/
theorem State.withCodec_tick (s : State) : (s.withCodec fn x c).tick = { s.tick with cxSampled := c } := rfl

theorem State.withCodec_completed (i : Instr) (s : State) :
    (s.withCodec fn x c).completed i = (s.completed i).withCodec fn x c := by
  cases i <;> rfl

theorem State.withCodec_checkAck (s : State) : (s.withCodec fn x c).checkAck = s.checkAck.withCodec fn x c := by
  have ha : (s.withCodec fn x c).acknowledged = s.acknowledged.withCodec fn x c := by
    refine (State.withInputs_acknowledged (s.withCodec fn x c)).trans ?_
    rw [s.acknowledged_eq]
    rfl
  unfold State.checkAck
  rw [ha]
  exact (apply_ite (State.withCodec fn x c) (s.env.pins.pAck = true) s.acknowledged s.enterFailure).symm

theorem State.withCodec_hearRequest (s : State) : (s.withCodec fn x c).hearRequest =
    { s.hearRequest with pins := { s.hearRequest.pins with cxFn := fn, cxIn := x } } := by
  have hq : (s.withCodec fn x c).request = s.request := rfl
  unfold State.hearRequest
  rw [hq]
  cases s.request with
  | none => rfl
  | some i => exact congrArg State.env (s.withCodec_completed fn x c i)

theorem State.withCodec_resetEdge (s : State) : (s.withCodec fn x c).resetEdge = s.resetEdge.withCodec fn x c := by
  have he : (s.withCodec fn x c).resetEnv = { s.resetEnv with pins := { s.resetEnv.pins with cxFn := fn, cxIn := x } } := by
    unfold State.resetEnv
    rw [State.withCodec_hearRequest]
    change Env.afterReset s.st (if s.env.pins.pDone || Config.heardUncompleted s.env.edge then _ else _) = _
    split <;> rfl
  unfold State.resetEdge
  rw [he]
  rfl

/-- Acceptance and completion do to the one state what they do to the other, where their effects do. -/
theorem accepting_withCodec {op : Op} {f : State → State}
    (hf : ∀ a, f (a.withCodec fn x c) = (f a).withCodec fn x c) :
    accepting op f (s.withCodec fn x c) =
      Result.andThen (accepting op f s) fun b => .next (b.withCodec fn x c) := by
  by_cases hs : s.st = .idle
  · rw [accepting_idle hs, accepting_idle (s := s.withCodec fn x c) hs]
    exact congrArg _ (hf (s.clearDone.acceptContext op))
  · rw [accepting_busy hs, accepting_busy (s := s.withCodec fn x c) hs]
    rfl

theorem completing_withCodec {i : Instr} {w : SeqState → Bool} {f : State → State} (hw : w s.st = true)
    (hf : ∀ a, f (a.withCodec fn x c) = (f a).withCodec fn x c) :
    completing i w f (s.withCodec fn x c) =
      Result.andThen (completing i w f s) fun b => .next (b.withCodec fn x c) := by
  by_cases hx : s.idx = 3
  · rw [completing_unused hw hx, completing_unused (s := s.withCodec fn x c) hw hx, State.withCodec_completed]
    rfl
  · rw [completing_wanted hw hx, completing_wanted (s := s.withCodec fn x c) hw hx, State.withCodec_completed, hf]
    rfl

theorem exec_command_withCodec (w : Nat) (s : State) :
    exec (decodeCmd w) (s.withCodec fn x c) =
      Result.andThen (exec (decodeCmd w) s) fun b => .next (b.withCodec fn x c) := by
  rcases decodeCmd_cases w with ⟨-, h⟩ | ⟨-, h⟩ | ⟨-, h⟩ | ⟨-, h⟩ <;> rw [h] <;>
    simp only [exec_init, exec_write, exec_read, exec_reservedCmd] <;>
    exact accepting_withCodec fn x c fun _ => rfl

theorem exec_request_withCodec {i : Instr} (hq : s.request = some i) :
    exec i (s.withCodec fn x c) = Result.andThen (exec i s) fun b => .next (b.withCodec fn x c) := by
  rcases State.request_cases hq with ⟨hs, rfl⟩ | ⟨hs, rfl⟩ | ⟨hs, rfl⟩ | ⟨hs, rfl⟩ | ⟨hs, rfl⟩ | ⟨hs, rfl⟩ |
    ⟨hs, rfl⟩ | ⟨hs, rfl⟩ <;>
    simp only [exec_start, exec_rstart, exec_tx, exec_ackchk, exec_rx, exec_mack, exec_mnack, exec_stop]
  case inr.inr.inr.inl => exact completing_withCodec fn x c (by simp [hs]) (State.withCodec_checkAck fn x c)
  all_goals exact completing_withCodec fn x c (by simp [hs]) fun _ => rfl

/-- An edge at other codec inputs leads to the same state, but for the record of the port (R108; log entry 6). -/
theorem step_withCodec (s : State) :
    step (s.withCodec fn x c) = Result.andThen (step s) fun t =>
      .next { t with cxSampled := codecOut (s.withCodec fn x c).env.codecRequest } := by
  generalize hd : codecOut (s.withCodec fn x c).env.codecRequest = d
  have hc : (s.withCodec fn x c).showCodec (s.withCodec fn x c).env.codecRequest =
      (s.showCodec s.env.codecRequest).withCodec fn x d := by rw [← hd]; rfl
  rw [step_eq, step_eq, hc, State.withCodec_edgeAction]
  rcases s.edgeAction_cases with ⟨-, ha⟩ | ⟨-, -, -, ha⟩ | ⟨-, -, -, ha⟩ | ⟨-, -, -, ha⟩ |
      ⟨i, -, -, hq, -, ha⟩ | ⟨-, -, -, -, -, ha⟩ | ⟨-, -, -, -, -, ha⟩ <;> rw [ha]
  case inl => exact congrArg (fun a => Host.Outcome.next (State.tick a)) (State.withCodec_resetEdge fn x d _)
  case inr.inl =>
    obtain ⟨b, hb⟩ := exec_command s.env.pins.cmdWord.toNat (s.showCodec s.env.codecRequest)
    simp only [exec_command_withCodec, hb, Result.andThen_next, State.withCodec_tick]
  case inr.inr.inr.inr.inl =>
    obtain ⟨b, hb⟩ := exec_request (s := s.showCodec s.env.codecRequest) hq
    have hw := exec_request_withCodec (s := s.showCodec s.env.codecRequest) fn x d hq
    simp only [hw, hb, Result.andThen_next, State.withCodec_tick]
  all_goals rfl

end

/-- Settles O9: `cx_fn` chooses the port's value from the codec inputs alone, and an edge at other codec inputs differs in
the record only. -/
theorem codecPortIsItsTableAndIsApart : Obligations.CodecPortIsItsTableAndIsApart := by
  refine ⟨fun s => ?_, fun s t t' fn x h h' => ?_⟩
  · change codecOut (decodeCodec (s.env.pins.cxFn ++ s.env.pins.cxIn).toNat) = _
    rcases decodeCodec_cases (s.env.pins.cxFn ++ s.env.pins.cxIn).toNat with ⟨ho, hd⟩ | ⟨ho, hd⟩ | ⟨ho, hd⟩ |
        ⟨ho, hd⟩ | ⟨ho, hd⟩ | ⟨ho, hd⟩ | ⟨ho, hd⟩ | ⟨ho, hd⟩ <;>
      rw [codecWord_fn] at ho <;>
      simp only [hd, ho, codecOut, field_codecWord, BitVec.extractLsb'_eq_self, Nat.reduceAdd, Nat.reduceLeDiff]
  · have h' : step (s.withCodec fn x s.cxSampled) = .next t' := h'
    rw [step_withCodec, h] at h'
    cases h'
    rfl

end Sys2Proof.Machine
end

section
/-! PROOFS. The values of the codec (spec/40_codec.md R101 to R113): what each function computes as a number, and from it
the round trips, the bits the encoders set and the bits the decoders read. -/

namespace Sys2Proof.Machine

/-! ### The decoders as numbers -/

/-- The value of two digits with the tens above bit `k` and the ones in the low four bits. -/
def digitsValue (k n : Nat) : Nat := 10 * (n / 2 ^ k) + n % 2 ^ 4

theorem digitsValue_six_lt (b : Byte) : digitsValue 6 b.toNat < 2 ^ 7 := by
  have hb := b.isLt
  unfold digitsValue
  omega

theorem digitsValue_five_lt (b : Byte) : digitsValue 5 b.toNat < 2 ^ 7 := by
  have hb := b.isLt
  unfold digitsValue
  omega

/-- DEC_MIN and ENC_MIN are the functions of the seconds (R102, R105). -/
theorem decMin_eq_decSec : decMin = decSec := rfl
theorem encMin_eq_encSec : encMin = encSec := rfl

theorem decSec_toNat (b : Byte) : (decSec b).toNat = digitsValue 6 b.toNat :=
  (BitVec.toNat_ofNat _ _).trans (Nat.mod_eq_of_lt (digitsValue_six_lt b))

theorem decHour_toNat (b : Byte) : (decHour b).toNat = digitsValue 5 b.toNat :=
  (BitVec.toNat_ofNat _ _).trans (Nat.mod_eq_of_lt (digitsValue_five_lt b))

/-- Seven bits hold every decoded value, so the port shows it whole (R8). -/
theorem codecOut_decSec (b : Byte) : codecOut (.decSec b) = BitVec.ofNat 8 (digitsValue 6 b.toNat) :=
  BitVec.setWidth_ofNat_of_le_of_lt (by decide) (digitsValue_six_lt b)

theorem codecOut_decHour (b : Byte) : codecOut (.decHour b) = BitVec.ofNat 8 (digitsValue 5 b.toNat) :=
  BitVec.setWidth_ofNat_of_le_of_lt (by decide) (digitsValue_five_lt b)

/-! ### The encoders as numbers -/

/-- Where the ones digit fits below the tens, packing is addition, truncated to 8 bits (R112, R113). -/
theorem packDigits_eq {k v : Nat} (h : v % 10 < 2 ^ k) :
    packDigits k v = BitVec.ofNat 8 (v / 10 * 2 ^ k + v % 10) := by
  rw [packDigits, ← Nat.shiftLeft_add_eq_or_of_lt h, Nat.shiftLeft_eq]

/-- The truncation loses bit 2 of the tens digit (R104). -/
theorem encSec_eq (v : BitVec 6) : encSec v = BitVec.ofNat 8 (v.toNat / 10 % 4 * 64 + v.toNat % 10) := by
  rw [encSec, packDigits_eq (by omega)]
  apply BitVec.eq_of_toNat_eq
  simp only [BitVec.toNat_ofNat]
  omega

theorem encHour_eq (h : BitVec 5) : encHour h = BitVec.ofNat 8 (h.toNat / 10 * 32 + h.toNat % 10) :=
  packDigits_eq (by omega)

theorem encSec_toNat (v : BitVec 6) : (encSec v).toNat = v.toNat / 10 % 4 * 64 + v.toNat % 10 := by
  rw [encSec_eq, BitVec.toNat_ofNat]
  exact Nat.mod_eq_of_lt (by omega)

theorem encHour_toNat (h : BitVec 5) : (encHour h).toNat = h.toNat / 10 * 32 + h.toNat % 10 := by
  rw [encHour_eq, BitVec.toNat_ofNat]
  exact Nat.mod_eq_of_lt (by omega)

/-! ### What the port shows -/

/-- A codec function writes its value to the record and nothing else (R108; log entry 6). -/
theorem exec_eq_of_codecOut {i : Instr} {s : State} {c : Byte} (hi : exec i s = .next (s.showCodec i))
    (hc : codecOut i = c) : exec i s = .next { s with cxSampled := c } := by
  rw [hi, ← hc]
  rfl

/-- Settles O6: seven bits hold the value of any two digits. -/
theorem decodersShowTensTimesTenPlusOnes : Obligations.DecodersShowTensTimesTenPlusOnes := fun b _ =>
  ⟨exec_eq_of_codecOut rfl (codecOut_decSec b), exec_eq_of_codecOut rfl (codecOut_decSec b),
    exec_eq_of_codecOut rfl (codecOut_decHour b)⟩

/-- Settles O7: the ones digit stands below the tens, whose bit 2 the truncation loses in ENC_SEC and ENC_MIN. -/
theorem encodersShowTheShiftedDigits : Obligations.EncodersShowTheShiftedDigits := fun _ _ v _ h =>
  ⟨exec_eq_of_codecOut rfl (encSec_eq v), exec_eq_of_codecOut rfl (encSec_eq v),
    exec_eq_of_codecOut rfl (encHour_eq h)⟩

/-- Settles O8: the table's value of both codes is 0x00. -/
theorem reservedCodecCodesShowZero : Obligations.ReservedCodecCodesShowZero := fun _ _ =>
  ⟨exec_eq_of_codecOut rfl rfl, exec_eq_of_codecOut rfl rfl⟩

/-! ### Round trips -/

theorem decHour_encHour (h : BitVec 5) : (decHour (encHour h)).toNat = h.toNat := by
  rw [decHour_toNat, encHour_toNat, digitsValue]
  omega

/-- Of the tens digit what is left is its value modulo 4 (R109). -/
theorem decSec_encSec (v : BitVec 6) : (decSec (encSec v)).toNat = v.toNat % 40 := by
  rw [decSec_toNat, encSec_toNat, digitsValue]
  omega

/-- Settles O10: the seconds and the minutes return modulo 40, the hours whole. -/
theorem codecRoundTrips : Obligations.CodecRoundTrips := by
  refine ⟨decHour_encHour, fun v hv => ?_, fun v hv => ?_⟩ <;>
    rw [decMin_eq_decSec, encMin_eq_encSec, decSec_encSec] <;> omega

/-! ### The bits the encoders set -/

theorem getLsbD_eq_true_iff {n : Nat} (x : BitVec n) (k : Nat) : x.getLsbD k = true ↔ x.toNat / 2 ^ k % 2 = 1 := by
  rw [← BitVec.testBit_toNat, Nat.testBit_eq_decide_div_mod_eq, decide_eq_true_iff]

/-- Bit 7 is bit 1 of the tens digit (R110). -/
theorem encSec_bit_seven (v : BitVec 6) :
    (encSec v).getLsbD 7 = true ↔ (20 ≤ v.toNat ∧ v.toNat ≤ 39) ∨ 60 ≤ v.toNat := by
  have ht : (encSec v).getLsbD 7 = true ↔ 2 ≤ v.toNat / 10 % 4 := by
    rw [getLsbD_eq_true_iff, encSec_toNat, Nat.mod_eq_of_lt (by omega)]
    omega
  rw [ht]
  omega

theorem encHour_bit_six (h : BitVec 5) : (encHour h).getLsbD 6 = true ↔ 20 ≤ h.toNat := by
  rw [getLsbD_eq_true_iff, encHour_toNat, Nat.mod_eq_of_lt (by omega)]
  omega

/-- Settles O11: beside the bits the encoders leave clear, the top bits are those of the tens digit. -/
theorem encodersSetExactlyTheListedBits : Obligations.EncodersSetExactlyTheListedBits :=
  ⟨fun v => ⟨encSec_bits v, encMin_bits v, encSec_bit_seven v, encSec_bit_seven v⟩,
    fun h => ⟨encHour_bits h, encHour_bit_six h⟩⟩

/-! ### The bits the decoders read -/

/-- A mask that covers the two digits changes nothing. -/
theorem digitsValue_and {k j n m : Nat} (hn : n / 2 ^ k < 2 ^ j) (ht : m / 2 ^ k = 2 ^ j - 1)
    (ho : m % 2 ^ 4 = 2 ^ 4 - 1) : digitsValue k (n &&& m) = digitsValue k n := by
  rw [digitsValue, Nat.and_div_two_pow, Nat.and_mod_two_pow, ht, ho, Nat.and_two_pow_sub_one_eq_mod,
    Nat.and_two_pow_sub_one_eq_mod, Nat.mod_eq_of_lt hn, Nat.mod_mod, digitsValue]

/-- The mask `m` flips bits of one digit and leaves the other alone. -/
def FlipsOneDigit (k m : Nat) : Prop :=
  (m / 2 ^ k = 0 ∧ m % 2 ^ 4 ≠ 0) ∨ (m / 2 ^ k ≠ 0 ∧ m % 2 ^ 4 = 0)

theorem xor_ne_left {n m : Nat} (h : m ≠ 0) : n ^^^ m ≠ n :=
  fun he => h (Nat.xor_right_injective (he.trans (Nat.xor_zero n).symm))

/-- A change of one digit alone changes the value. -/
theorem digitsValue_xor_ne {k n m : Nat} (h : FlipsOneDigit k m) : digitsValue k (n ^^^ m) ≠ digitsValue k n := by
  rw [digitsValue, digitsValue, Nat.xor_div_two_pow, Nat.xor_mod_two_pow]
  rcases h with ⟨ht, ho⟩ | ⟨ht, ho⟩
  · have hne := xor_ne_left (n := n % 2 ^ 4) ho
    rw [ht, Nat.xor_zero]
    omega
  · have hne := xor_ne_left (n := n / 2 ^ k) ht
    rw [ho, Nat.xor_zero]
    omega

theorem decSec_and (b : Byte) : decSec (b &&& 0xCF) = decSec b := by
  apply BitVec.eq_of_toNat_eq
  rw [decSec_toNat, decSec_toNat, BitVec.toNat_and]
  exact digitsValue_and (j := 2) (by omega) rfl rfl

theorem decHour_and (b : Byte) : decHour (b &&& 0xEF) = decHour b := by
  apply BitVec.eq_of_toNat_eq
  rw [decHour_toNat, decHour_toNat, BitVec.toNat_and]
  exact digitsValue_and (j := 3) (by omega) rfl rfl

theorem decSec_xor_ne (b : Byte) {m : Byte} (hm : FlipsOneDigit 6 m.toNat) : decSec (b ^^^ m) ≠ decSec b := by
  rw [Ne, ← BitVec.toNat_inj, decSec_toNat, decSec_toNat, BitVec.toNat_xor]
  exact digitsValue_xor_ne hm

theorem decHour_xor_ne (b : Byte) {m : Byte} (hm : FlipsOneDigit 5 m.toNat) : decHour (b ^^^ m) ≠ decHour b := by
  rw [Ne, ← BitVec.toNat_inj, decHour_toNat, decHour_toNat, BitVec.toNat_xor]
  exact digitsValue_xor_ne hm

/-- Every bit but 5:4 stands in one of the two digits of a second or a minute (R111). -/
theorem flipsOneDigit_six : ∀ k : Fin 8, k.val ≠ 4 → k.val ≠ 5 → FlipsOneDigit 6 (BitVec.ofNat 8 (2 ^ k.val)).toNat := by
  unfold FlipsOneDigit
  decide

/-- Every bit but bit 4 stands in one of the two digits of an hour (R111). -/
theorem flipsOneDigit_five : ∀ k : Fin 8, k.val ≠ 4 → FlipsOneDigit 5 (BitVec.ofNat 8 (2 ^ k.val)).toNat := by
  unfold FlipsOneDigit
  decide

/-- Settles O12: the masks cover both digits, and any bit they do not clear flips one digit alone. -/
theorem decodersIgnoreExactlyTheListedBits : Obligations.DecodersIgnoreExactlyTheListedBits := by
  refine fun b => ⟨⟨(decSec_and b).symm, (decSec_and b).symm, (decHour_and b).symm⟩, fun k h4 h5 => ?_, fun k h4 => ?_⟩
  · have hs := decSec_xor_ne b (flipsOneDigit_six k h4 h5)
    exact ⟨hs, hs⟩
  · exact decHour_xor_ne b (flipsOneDigit_five k h4)

end Sys2Proof.Machine
end

section
/-! PROOFS. What each instruction does (spec/41_transactions.md R131 to R146, R154): a command in IDLE and in any other
state, a primitive in the state that requests it, and the edge that runs them (R130). -/

namespace Sys2Proof.Machine

variable {s t : State}

/-! ### The host commands -/

/-- Settles O13: in IDLE the command is accepted. -/
theorem initIsAccepted : Obligations.InitIsAccepted := fun u s hs => (exec_init u s).trans (accepting_idle hs)

/-- Settles O14: the encoders write the digits of the three fields. -/
theorem writeIsAccepted : Obligations.WriteIsAccepted := by
  intro h m v s hs
  rw [exec_write_idle h m v hs, ← encSec_eq v, ← encSec_eq m, ← encHour_eq h]
  rfl

/-- Settles O15: in IDLE the command is accepted. -/
theorem readIsAccepted : Obligations.ReadIsAccepted := fun u _ hs => exec_read_idle u hs

/-- The reserved op completes where it is accepted, and the block stays where it was (R134). -/
theorem exec_reservedCmd_idle (u : BitVec 17) (hs : s.st = .idle) :
    exec (.reservedCmd u) s = .next ((s.clearDone.acceptContext .reserved).completeWith .badCmd) :=
  (exec_reservedCmd u s).trans (accepting_idle hs)

/-- Settles O16: the acceptance is the completion, and leaves `st` at IDLE, which requests nothing. -/
theorem reservedCommandCompletesWithBadCmd : Obligations.ReservedCommandCompletesWithBadCmd := by
  intro u s hs
  rw [exec_reservedCmd_idle u hs]
  refine ⟨rfl, fun t ht => ?_⟩
  cases ht
  exact ⟨hs, by simp [State.outputs, hs, SeqState.requests]⟩

/-- Settles O17: each command is an acceptance, and none is accepted outside IDLE. -/
theorem busyBlockTurnsCommandsAway : Obligations.BusyBlockTurnsCommandsAway := by
  intro s u h m v hs
  rw [exec_init, exec_write, exec_read, exec_reservedCmd]
  exact ⟨accepting_busy hs, accepting_busy hs, accepting_busy hs, accepting_busy hs⟩

/-! ### The bus primitives in the states that request them -/

theorem exec_start_in_start (hs : s.st = .start) (hx : s.idx ≠ 3) :
    exec .start s = .next { s.completed .start with st := .addr } :=
  (exec_start s).trans (completing_wanted (by simp [hs]) hx)

theorem exec_rstart_in_rstart (hs : s.st = .rstart) (hx : s.idx ≠ 3) :
    exec .rstart s = .next { s.completed .rstart with phase := true, st := .addr } :=
  (exec_rstart s).trans (completing_wanted (by simp [hs]) hx)

theorem exec_tx_of_sends (d : Byte) (hs : s.st.sends = true) (hx : s.idx ≠ 3) :
    exec (.tx d) s = .next { s.completed (.tx d) with sent := s.sentByte, st := .ackw } :=
  (exec_tx d s).trans (completing_wanted hs hx)

theorem exec_ackchk_in_ackw (hs : s.st = .ackw) (hx : s.idx ≠ 3) :
    exec .ackchk s = .next (s.completed .ackchk).checkAck :=
  (exec_ackchk s).trans (completing_wanted (by simp [hs]) hx)

theorem exec_rx_in_din (hs : s.st = .din) (hx : s.idx ≠ 3) :
    exec .rx s = .next { (s.completed .rx).receive s.env.pins.pRdata with
      st := if s.idx = 2 then .mnack else .mack } :=
  (exec_rx s).trans (completing_wanted (by simp [hs]) hx)

theorem exec_mack_in_mack (hs : s.st = .mack) (hx : s.idx ≠ 3) :
    exec .mack s = .next { s.completed .mack with idx := s.idx + 1, st := .din } :=
  (exec_mack s).trans (completing_wanted (by simp [hs]) hx)

theorem exec_mnack_in_mnack (hs : s.st = .mnack) (hx : s.idx ≠ 3) :
    exec .mnack s = .next { s.completed .mnack with st := .stop } :=
  (exec_mnack s).trans (completing_wanted (by simp [hs]) hx)

theorem exec_stop_in_stop (hs : s.st = .stop) (hx : s.idx ≠ 3) :
    exec .stop s = .next (s.completed .stop).returnFromTransaction :=
  (exec_stop s).trans (completing_wanted (by simp [hs]) hx)

/-- Settles O18: START's transition, and the bus hears it. -/
theorem startCompletes : Obligations.StartCompletes := fun _ hs hx => ⟨exec_start_in_start hs hx, rfl⟩

/-- Settles O19: in the read phase ADDR sends the read address. -/
theorem repeatedStartCompletes : Obligations.RepeatedStartCompletes := by
  intro s hs hx
  rw [exec_rstart_in_rstart hs hx]
  refine ⟨rfl, fun t ht => ?_⟩
  cases ht
  exact ⟨rfl, rfl⟩

/-- Settles O20: each of the three states names the byte it sends. -/
theorem transmitCompletes : Obligations.TransmitCompletes := by
  intro s d hx
  have hd (b : Sent) (hs : s.st.sends = true) (hb : s.sentByte = b) :
      exec (.tx d) s = .next { s with sent := b, st := .ackw, done := false, env := s.env.hearTx d } :=
    hb ▸ exec_tx_of_sends d hs hx
  refine ⟨fun hs => hd _ ?_ ?_, fun hs => hd _ ?_ ?_, fun hs => hd _ ?_ ?_⟩ <;>
    simp [hs, SeqState.sends, State.sentByte]

/-- Settles O21: a NACK enters failure, and an acknowledged byte goes on as `sent` says. -/
theorem acknowledgeCheckBranches : Obligations.AcknowledgeCheckBranches := by
  intro s hs hx
  rw [exec_ackchk_in_ackw hs hx]
  rcases (s.completed .ackchk).checkAck_cases with ⟨hp, he⟩ | ⟨hp, he⟩ <;> rw [he]
  · have hp : s.env.pins.pAck = false := by simpa using hp
    rw [if_pos hp]
    rfl
  · have hp : ¬s.env.pins.pAck = false := by simpa using hp
    rw [if_neg hp]
    simp only [State.acknowledged, State.completed, State.clearDone]
    cases s.sent with
    | addr => by_cases hq : s.phase = true <;> simp [hq]
    | noByte | reg | data => rfl

/-- Settles O22: DIN's transition at each value of `idx` that names a register. -/
theorem receiveDecodesTheByte : Obligations.ReceiveDecodesTheByte := by
  intro s hs
  refine ⟨fun hx => ?_, fun hx => ?_, fun hx => ?_⟩ <;>
    rw [exec_rx_in_din hs (by rw [hx]; decide)] <;> simp [State.receive, State.completed, State.clearDone, hx]

/-- Settles O23: MACK's transition, which the environment does not hear. -/
theorem masterAckCompletes : Obligations.MasterAckCompletes := fun _ hs hx => exec_mack_in_mack hs hx

/-- Settles O24: MNACK's transition, which the environment does not hear. -/
theorem masterNackCompletes : Obligations.MasterNackCompletes := fun _ hs hx => exec_mnack_in_mnack hs hx

/-- Settles O25: STOP's transition is the return from the transaction. -/
theorem stopCompletesTheCommand : Obligations.StopCompletesTheCommand := by
  intro s hs hx
  rw [exec_stop_in_stop hs hx]
  refine ⟨rfl, rfl, fun t ht => ?_⟩
  cases ht
  exact ⟨rfl, rfl⟩

/-! ### The edges that run them -/

@[simp] theorem State.checkAck_cxSampled : s.checkAck.cxSampled = s.cxSampled := by rw [State.checkAck_eq]

/-- Every edge records what the codec port showed (log entry 6). -/
theorem Edge.cxSampled (h : Edge s t) : t.cxSampled = codecOut s.env.codecRequest := by
  cases h with
  | ackchk => simp
  | _ => rfl

/-- Settles O28: the codec request of an edge only shows the port's answer, beside the command or the
request it runs. -/
theorem stepRunsTheDecodedInstruction : Obligations.StepRunsTheDecodedInstruction := by
  refine ⟨fun s i ha => ?_, fun s i hq hr hd => ?_, fun s t i hi h => ?_⟩
  · obtain ⟨hc, rfl⟩ := State.accepts_iff.1 ha
    obtain ⟨hr, hs, hv⟩ := State.takesCommand_iff.1 hc
    rw [step_command hr hs hv, exec_codecRequest, Result.andThen_next]
  · rw [step_request hq hr hd, exec_codecRequest, Result.andThen_next]
  · subst hi
    exact ⟨_, exec_codecRequest s s.env, (step_edge h).cxSampled⟩

/-- Settles O30: the edge is a hold, and IDLE requests nothing. -/
theorem idleWithoutCommandOnlyClearsDone : Obligations.IdleWithoutCommandOnlyClearsDone := by
  intro s hs hr hv
  exact ⟨by simp [State.outputs, hs, SeqState.requests], _, step_idle hs hr hv, rfl, rfl, rfl⟩

end Sys2Proof.Machine
end

section
/-! PROOFS. Which inputs an edge reads (spec/41_transactions.md R131, R140 to R142, R154): an edge at other inputs leads
to the same state where the inputs it reads are the same, and the registers of a request that waits. -/

namespace Sys2Proof.Machine

variable {s t u : State} {p : Inputs}

/-- Settles O34: a command runs in every state, and a request in the state that makes it. -/
theorem everyEdgeHasANextState : Obligations.EveryEdgeHasANextState := step_total

/-! ### The inputs an edge reads -/

/-- The inputs `p` are those of `s` wherever an edge from `s` reads them: the command in IDLE without reset (R131),
`p_done` where a primitive is requested, `p_ack` in ACKW and `p_rdata` in DIN (R142). -/
structure State.ReadsSame (s : State) (p : Inputs) : Prop where
  rst : p.rst = s.env.pins.rst
  cxFn : p.cxFn = s.env.pins.cxFn
  cxIn : p.cxIn = s.env.pins.cxIn
  cmdValid : s.env.pins.rst = false → s.st = .idle → p.cmdValid = s.env.pins.cmdValid
  cmdWord : s.env.pins.rst = false → s.st = .idle → s.env.pins.cmdValid = true → p.cmdWord = s.env.pins.cmdWord
  pDone : s.st.requests = true → p.pDone = s.env.pins.pDone
  pAck : s.st = .ackw → p.pAck = s.env.pins.pAck
  pRdata : s.st = .din → p.pRdata = s.env.pins.pRdata

theorem State.readsSame_self (s : State) : s.ReadsSame s.env.pins where
  rst := rfl
  cxFn := rfl
  cxIn := rfl
  cmdValid _ _ := rfl
  cmdWord _ _ _ := rfl
  pDone _ := rfl
  pAck _ := rfl
  pRdata _ := rfl

/-- Time passing replaces the inputs. -/
theorem State.withPins_tick (p : Inputs) (s : State) : (s.withPins p).tick = s.tick := rfl

theorem State.withPins_completed (p : Inputs) (i : Instr) (s : State) :
    (s.withPins p).completed i = (s.completed i).withPins p := by
  cases i <;> rfl

theorem State.ReadsSame.codecRequest (h : s.ReadsSame p) : (s.withPins p).env.codecRequest = s.env.codecRequest := by
  simp only [Env.codecRequest, State.withPins, h.cxFn, h.cxIn]

theorem State.ReadsSame.edgeAction (h : s.ReadsSame p) : (s.withPins p).edgeAction = s.edgeAction := by
  have hq : (s.withPins p).request = s.request := rfl
  rw [State.edgeAction, State.edgeAction, hq]
  simp only [State.withPins, h.rst]
  cases hr : s.env.pins.rst with
  | true => rfl
  | false =>
    by_cases hs : s.st = .idle
    · cases hv : s.env.pins.cmdValid with
      | true => simp [hs, h.cmdValid hr hs, h.cmdWord hr hs hv, hv]
      | false => simp [hs, h.cmdValid hr hs, hv]
    · cases hq : s.request with
      | none => simp [hs]
      | some i =>
        simp [hs, h.pDone (State.requests_of_request hq)]
        rfl -- one condition on `idx`, decided by two terms

/-- A reset edge reads `p_done` to know whether the request is heard (R170, R232). -/
theorem State.ReadsSame.resetEnv (h : s.ReadsSame p) : (s.withPins p).resetEnv = { s.resetEnv with pins := p } := by
  have hq : (s.withPins p).request = s.request := rfl
  unfold State.resetEnv State.hearRequest
  rw [hq]
  cases hq : s.request with
  | none => simp only [ite_self]; rfl
  | some i =>
    have hi : (s.withPins p).env.hear i = { s.env.hear i with pins := p } :=
      congrArg State.env (s.withPins_completed p i)
    have hd : (s.withPins p).env.pins.pDone = s.env.pins.pDone := h.pDone (State.requests_of_request hq)
    have he : (s.withPins p).env.edge = s.env.edge := rfl
    simp only [hi, hd, he]
    split <;> rfl

/-- Acceptance reads no input but the command it is given. -/
theorem exec_command_withPins (w : Nat) (s : State) :
    exec (decodeCmd w) (s.withPins p) = Result.andThen (exec (decodeCmd w) s) fun b => .next (b.withPins p) := by
  have hf {op : Op} {f : State → State} (hf : ∀ a, f (a.withPins p) = (f a).withPins p) :
      accepting op f (s.withPins p) = Result.andThen (accepting op f s) fun b => .next (b.withPins p) := by
    by_cases hs : s.st = .idle
    · rw [accepting_idle hs, accepting_idle (s := s.withPins p) hs]
      exact congrArg Host.Outcome.next (hf (s.clearDone.acceptContext op))
    · rw [accepting_busy hs, accepting_busy (s := s.withPins p) hs]
      rfl
  rcases decodeCmd_cases w with ⟨-, h⟩ | ⟨-, h⟩ | ⟨-, h⟩ | ⟨-, h⟩ <;> rw [h] <;>
    simp only [exec_init, exec_write, exec_read, exec_reservedCmd] <;> exact hf fun _ => rfl

theorem completing_withPins {i : Instr} {w : SeqState → Bool} {f : State → State} (hw : w s.st = true)
    (hf : f ((s.completed i).withPins p) = (f (s.completed i)).withPins p) :
    completing i w f (s.withPins p) = Result.andThen (completing i w f s) fun b => .next (b.withPins p) := by
  by_cases hx : s.idx = 3
  · rw [completing_unused hw hx, completing_unused (s := s.withPins p) hw hx, State.withPins_completed]
    rfl
  · rw [completing_wanted hw hx, completing_wanted (s := s.withPins p) hw hx, State.withPins_completed, hf]
    rfl

/-- ACKW reads `p_ack` alone (R139). -/
theorem State.withPins_checkAck (hk : p.pAck = s.env.pins.pAck) :
    (s.withPins p).checkAck = s.checkAck.withPins p := by
  have ha : (s.withPins p).acknowledged = s.acknowledged.withPins p := by
    refine (State.withInputs_acknowledged (u := s) (s.withPins p)).trans ?_
    rw [s.acknowledged_eq]
    rfl
  unfold State.checkAck
  rw [ha, ← hk]
  exact (apply_ite (State.withPins p) (p.pAck = true) s.acknowledged s.enterFailure).symm

/-- A completed request reads `p_ack` in ACKW, `p_rdata` in DIN, and no other input (R142). -/
theorem exec_request_withPins {i : Instr} (hq : s.request = some i) (hk : s.st = .ackw → p.pAck = s.env.pins.pAck)
    (hr : s.st = .din → p.pRdata = s.env.pins.pRdata) :
    exec i (s.withPins p) = Result.andThen (exec i s) fun b => .next (b.withPins p) := by
  rcases State.request_cases hq with ⟨hs, rfl⟩ | ⟨hs, rfl⟩ | ⟨hs, rfl⟩ | ⟨hs, rfl⟩ | ⟨hs, rfl⟩ | ⟨hs, rfl⟩ |
    ⟨hs, rfl⟩ | ⟨hs, rfl⟩ <;>
    simp only [exec_start, exec_rstart, exec_tx, exec_ackchk, exec_rx, exec_mack, exec_mnack, exec_stop]
  case inr.inr.inr.inl => exact completing_withPins (by simp [hs]) (State.withPins_checkAck (by simpa using hk hs))
  case inr.inr.inr.inr.inl =>
    refine completing_withPins (by simp [hs]) ?_
    have hb : ((s.completed .rx).withPins p).env.pins.pRdata = (s.completed .rx).env.pins.pRdata :=
      hr hs
    rw [hb]
    rfl
  all_goals exact completing_withPins (by simp [hs]) rfl

/-- An edge at other inputs leads to the same state where the inputs it reads are the same. -/
theorem State.ReadsSame.step (h : s.ReadsSame p) : step (s.withPins p) = step s := by
  have hc : (s.withPins p).showCodec (s.withPins p).env.codecRequest =
      (s.showCodec s.env.codecRequest).withPins p := by rw [h.codecRequest]; rfl
  rw [step_eq, step_eq, hc, h.edgeAction]
  rcases s.edgeAction_cases with ⟨-, ha⟩ | ⟨-, -, -, ha⟩ | ⟨-, -, -, ha⟩ | ⟨-, -, -, ha⟩ |
      ⟨i, -, -, hq, -, ha⟩ | ⟨-, -, -, -, -, ha⟩ | ⟨-, -, -, -, -, ha⟩ <;> rw [ha]
  case inl =>
    have hr : ((s.showCodec s.env.codecRequest).withPins p).resetEnv =
        { (s.showCodec s.env.codecRequest).resetEnv with pins := p } := h.resetEnv
    simp only [State.resetEdge, hr]
    rfl
  case inr.inl =>
    obtain ⟨b, hb⟩ := exec_command s.env.pins.cmdWord.toNat (s.showCodec s.env.codecRequest)
    simp only [exec_command_withPins, hb, Result.andThen_next, State.withPins_tick]
  case inr.inr.inr.inr.inl =>
    obtain ⟨b, hb⟩ := exec_request (s := s.showCodec s.env.codecRequest) hq
    have hw := exec_request_withPins (s := s.showCodec s.env.codecRequest) hq h.pAck h.pRdata
    simp only [hw, hb, Result.andThen_next, State.withPins_tick]
  all_goals rfl

/-- An accepted command writes the context: the op its bits 18:17 name, and a fresh rest (R131). -/
theorem exec_command_context {w : Nat} (hs : s.st = .idle) (h : exec (decodeCmd w) s = .next t) :
    t.opR.code = field 17 2 w ∧ t.phase = false ∧ t.sent = .noByte ∧ t.idx = 0 ∧ t.fail = false := by
  rcases exec_command_idle hs h with ⟨u, -, ho, rfl⟩ | ⟨x, m, v, -, ho, rfl⟩ | ⟨u, -, ho, rfl⟩ | ⟨u, -, ho, rfl⟩ <;>
    exact ⟨(field_eq ho).symm, rfl, rfl, rfl, rfl⟩

/-- Settles O40: the accepting edge runs the command, and no other edge reads `cmd_word`. -/
theorem acceptanceWritesAFreshContext : Obligations.AcceptanceWritesAFreshContext := by
  refine ⟨fun s t hs hv hr h => ?_, fun s w hn => State.ReadsSame.step ?_⟩
  · rw [step_command hr hs hv] at h
    obtain ⟨b, hb, hk⟩ := Result.andThen_eq_next.1 h
    cases hk
    rw [← field_eq_extractLsb']
    have hc := exec_command_context (s := s.showCodec s.env.codecRequest) hs hb
    exact hc
  · exact { s.readsSame_self with cmdWord := fun hr hs hv => absurd ⟨hs, hv, hr⟩ hn }

/-- Settles O41: outside IDLE an edge reads neither `cmd_valid` nor `cmd_word`. -/
theorem noCommandIsAcceptedWhileBusy : Obligations.NoCommandIsAcceptedWhileBusy := by
  intro s v w hs
  refine ⟨by simp [State.outputs, hs], fun i => by simp [State.accepts, hs], State.ReadsSame.step ?_⟩
  exact { s.readsSame_self with cmdValid := fun _ h => absurd h hs, cmdWord := fun _ h => absurd h hs }

/-- Settles O42: each of the three inputs is one the edge does not read in these states. -/
theorem responseInputsAreReadOnlyWhereListed : Obligations.ResponseInputsAreReadOnlyWhereListed := by
  intro s a d x
  refine ⟨fun hs => State.ReadsSame.step ?_, fun hs => State.ReadsSame.step ?_, fun hq => State.ReadsSame.step ?_⟩
  · exact { s.readsSame_self with pAck := fun h => absurd h hs }
  · exact { s.readsSame_self with pRdata := fun h => absurd h hs }
  · exact { s.readsSame_self with pDone := fun h => absurd h (Bool.eq_false_iff.1 hq) }

/-! ### A request that waits -/

/-- From `s` to `t` no register has changed but `done`, which is 0, and nothing has happened on the bus (R140). -/
structure State.Waited (s t : State) : Prop where
  registers : { t with cxSampled := s.cxSampled, env := s.env } = { s with done := false }
  bus : t.env.bus = s.env.bus
  target : t.env.target = s.env.target

theorem State.Waited.trans (h : s.Waited t) (h' : t.Waited u) : s.Waited u := by
  refine ⟨?_, h'.bus.trans h.bus, h'.target.trans h.target⟩
  have hu := congrArg (fun a => { a with cxSampled := s.cxSampled, env := s.env }) h'.registers
  exact hu.trans (congrArg (fun a => { a with done := false }) h.registers)

theorem State.Waited.st (h : s.Waited t) : t.st = s.st := (congrArg State.st h.registers :)
theorem State.Waited.idx (h : s.Waited t) : t.idx = s.idx := (congrArg State.idx h.registers :)
theorem State.Waited.wdata (h : s.Waited t) : t.wdata = s.wdata := (congrArg State.wdata h.registers :)

/-- An edge at which the request is not completed waits (R140). -/
theorem step_waited (hq : s.st.requests = true) (hx : s.idx ≠ 3) (hr : s.env.pins.rst = false)
    (hd : s.env.pins.pDone = false) : ∃ t, step s = .next t ∧ s.Waited t := by
  obtain ⟨i, hi⟩ := Option.isSome_iff_exists.1 (s.request_isSome.trans hq)
  exact ⟨_, step_hold hi hr hd hx, rfl, rfl, rfl⟩

/-- So does a run of such edges: there is no timeout. -/
theorem run_waited (n : Nat) : ∀ s : State, s.st.requests = true → s.idx ≠ 3 → (n ≠ 0 → s.env.attached = false) →
    n ≤ s.env.upcoming.length → (∀ p ∈ s.inputsAhead (n + 1), p.rst = false ∧ p.pDone = false) →
    ∃ t, Host.Core.run core (n + 1) s = .next t ∧ s.Waited t := by
  induction n with
  | zero =>
    intro s hq hx _ _ hp
    obtain ⟨hr, hd⟩ := hp s.env.pins (by simp [State.inputsAhead])
    obtain ⟨t, ht, hw⟩ := step_waited hq hx hr hd
    exact ⟨t, run_succ ht 0, hw⟩
  | succ n ih =>
    intro s hq hx ha hn hp
    obtain ⟨hr, hd⟩ := hp s.env.pins (by simp [State.inputsAhead])
    obtain ⟨t, ht, hw⟩ := step_waited hq hx hr hd
    have he := step_edge ht
    obtain ⟨-, hu, hat⟩ := he.env_of_not_attached (ha n.succ_ne_zero)
    rw [he.inputsAhead_succ (ha n.succ_ne_zero) hn] at hp
    obtain ⟨u, hrun, hwu⟩ := ih t (by rwa [hw.st]) (by rwa [hw.idx]) (fun _ => hat)
      (by rw [hu, List.length_tail]; omega) (List.forall_mem_cons.1 hp).2
    exact ⟨u, (run_succ ht _).trans hrun, hw.trans hwu⟩

/-- Settles O29: the registers that make the request are among those that do not change. -/
theorem requestIsHeldForAnyNumberOfEdges : Obligations.RequestIsHeldForAnyNumberOfEdges := by
  intro n s hq hx ha hn hp
  obtain ⟨t, ht, hw⟩ := run_waited n s hq hx ha hn hp
  exact ⟨t, ht, hw.registers, hw.bus, hw.target, (congrArg SeqState.requests hw.st).trans hq,
    congrArg SeqState.pOp hw.st, hw.wdata⟩

end Sys2Proof.Machine
end

section
/-! PROOFS. Transactions (spec/41_transactions.md R147 to R151): each edge plays the sequence, a NACK leaves only STOP,
and a command whose primitives complete at once issues its sequence and completes. -/

namespace Sys2Proof.Machine

variable {s t : State}

/-! ### A NACK, and STOP after it -/

/-- A NACK enters failure, and nothing else changes but what the bus hears (R150, R206). -/
theorem step_nack (hs : s.st = .ackw) (hx : s.idx ≠ 3) (hr : s.env.pins.rst = false) (hd : s.env.pins.pDone = true)
    (hp : s.env.pins.pAck = false) :
    step s = .next ((s.showCodec s.env.codecRequest).completed .ackchk).enterFailure.tick := by
  have hk : ((s.showCodec s.env.codecRequest).completed .ackchk).checkAck =
      ((s.showCodec s.env.codecRequest).completed .ackchk).enterFailure := by simp [State.checkAck, hp]
  rw [step_request (i := .ackchk) (by simp [State.request, hs]) hr hd,
    exec_ackchk_in_ackw (s := s.showCodec s.env.codecRequest) hs hx, hk]
  rfl

/-- STOP returns from the transaction where it completes (R146, R207). -/
theorem step_stop (hs : s.st = .stop) (hx : s.idx ≠ 3) (hr : s.env.pins.rst = false) (hd : s.env.pins.pDone = true) :
    step s = .next ((s.showCodec s.env.codecRequest).completed .stop).returnFromTransaction.tick := by
  rw [step_request (i := .stop) (by simp [State.request, hs]) hr hd,
    exec_stop_in_stop (s := s.showCodec s.env.codecRequest) hs hx]
  rfl

/-- What makes an edge the transition of state `q` (R130). -/
theorem State.advancesFrom_iff {q : SeqState} : s.advancesFrom q = true ↔
    s.env.pins.rst = false ∧ s.st = q ∧ s.st.requests = true ∧ s.env.pins.pDone = true ∧ s.idx ≠ 3 := by
  simp [State.advancesFrom, State.completesPrimitive, and_assoc]

/-- Settles O53: a NACK enters failure, and a failed STOP holds until it returns with the code of a failure. -/
theorem nackAbortsAndReleases : Obligations.NackAbortsAndReleases := by
  refine ⟨fun s t ha hp h => ?_, fun s t hs hf hx hr h => ⟨fun hd => ?_, fun hd => ?_⟩⟩
  · obtain ⟨hr, hs, -, hd, hx⟩ := State.advancesFrom_iff.1 ha
    rw [step_nack hs hx hr hd hp] at h
    cases h
    exact ⟨rfl, rfl, rfl, rfl, rfl, rfl, rfl, rfl, rfl, Env.hear_regs s.env (by simp)⟩
  · rw [step_hold (i := .stop) (by simp [State.request, hs]) hr hd hx] at h
    cases h
    exact ⟨hs, hf⟩
  · rw [step_stop hs hx hr hd] at h
    cases h
    exact ⟨rfl, congrArg completionStatus hf, rfl, rfl⟩

/-! ### Acceptance -/

/-- What acceptance of the command `i` leaves to issue, and where it leaves the block (R131 to R135). -/
structure State.Begins (i : Instr) (s t : State) : Prop where
  remaining : t.remaining = fullSequence i
  started : fullSequence i ≠ [] → t.st = .start ∧ t.OnCourse ∧ t.fail = false
  rd0 : t.rd0 = s.rd0
  rd1 : t.rd1 = s.rd1
  rd2 : t.rd2 = s.rd2

theorem Edge.begins {i : Instr} (h : Edge s t) (ha : s.accepts i = true) : s.Begins i t := by
  obtain ⟨hc, rfl⟩ := State.accepts_iff.1 ha
  obtain ⟨hr, hs, hv⟩ := State.takesCommand_iff.1 hc
  cases h with
  | reset h => simp [h] at hr
  | hold _ hw => simp [hs, hv, SeqState.requests] at hw
  | recover _ hi => exact absurd hs hi
  | recoverCompleted _ _ hq => exact absurd hs (State.ne_idle_of_request hq)
  | init _ _ _ _ hd | write _ _ _ _ _ _ hd | read _ _ _ _ hd =>
    rw [hd]
    exact ⟨rfl, fun _ => ⟨rfl, State.onCourse_accepted rfl (by simp) rfl rfl rfl rfl, rfl⟩, rfl, rfl, rfl⟩
  | reservedCmd _ _ _ _ hd =>
    rw [hd]
    exact ⟨State.remaining_of_not_requests (by simp [hs, SeqState.requests]), fun h => absurd rfl h, rfl, rfl, rfl⟩
  | tx _ _ hq => simp [hs, SeqState.sends] at hq
  | start _ _ hq | rstart _ _ hq | ackchk _ _ hq | rx _ _ hq | mack _ _ hq | mnack _ _ hq | stop _ _ hq =>
    simp [hs] at hq

/-- Settles O54: acceptance begins a sequence, a completed primitive plays its head, and any other edge leaves it. -/
theorem eachEdgePlaysTheSequence : Obligations.EachEdgePlaysTheSequence := by
  intro s t hi hr h
  have he := step_edge h
  have ho := State.onCourse_of_inv hi
  refine ⟨fun i ha => (he.begins ha).remaining, fun hn hp => he.waits ho hr (fun hs => ?_) hp, he.plays ho hr⟩
  simpa [State.takesCommand, hr, hs] using State.takesCommand_eq_false hn

/-! ### Sequences with a NACK -/

/-- Without a NACK the sequence is whole. -/
theorem nackedAt_of_no_check {j : Nat} : ∀ {l : List Instr}, .ackchk ∉ l → nackedAt j l = l
  | [], _ => rfl
  | p :: ps, h => by
    obtain ⟨hp, hps⟩ : ¬.ackchk = p ∧ .ackchk ∉ ps := by simpa using h
    rw [nackedAt, if_neg (Ne.symm hp), nackedAt_of_no_check hps]

theorem nackedAt_zero : ∀ l : List Instr, nackedAt 0 l = l
  | [] => rfl
  | p :: ps => by
    simp only [nackedAt, nackedAt_zero ps, Nat.zero_sub]
    split
    · next h => simp [h]
    · rfl

theorem nackedAt_ne_nil {j : Nat} {l : List Instr} (h : l ≠ []) : nackedAt j l ≠ [] := by
  cases l with
  | nil => exact absurd rfl h
  | cons p ps =>
    rw [nackedAt]
    split
    · split <;> simp
    · simp

/-- A NACK adds STOP and nothing else. -/
theorem mem_nackedAt {q : Instr} : ∀ {j : Nat} {l : List Instr}, q ∈ nackedAt j l → q ∈ l ∨ q = .stop
  | _, [], h => .inl h
  | j, p :: ps, h => by
    have hm (k : Nat) (hk : q ∈ p :: nackedAt k ps) : q ∈ p :: ps ∨ q = .stop := by
      rcases List.mem_cons.1 hk with rfl | hk
      · exact .inl List.mem_cons_self
      · exact (mem_nackedAt hk).imp_left (List.mem_cons_of_mem p)
    rw [nackedAt] at h
    split at h
    · next hp =>
      subst hp
      split at h
      · have hq : q = .ackchk ∨ q = .stop := by simpa using h
        exact hq.imp_left fun hq => by simp [hq]
      · exact hm _ h
    · exact hm _ h

/-- A NACK ends a sequence no earlier than its first check. -/
theorem check_mem_nackedAt {j : Nat} {l : List Instr} (h : .ackchk ∈ l) : .ackchk ∈ nackedAt j l := by
  induction l with
  | nil => cases h
  | cons p ps ih =>
    rw [nackedAt]
    split
    · split <;> exact List.mem_cons_self
    · next hp => exact List.mem_cons_of_mem p (ih ((List.mem_cons.1 h).resolve_left (Ne.symm hp)))

/-- The head of a sequence with a NACK, answered: the edge completes it, and what is left is a sequence with a NACK
again, answered by the inputs after it. -/
theorem answered_head {j : Nat} {r ps : List Instr} {p : Instr} {i : Inputs} {is : List Inputs}
    (hl : nackedAt j r = p :: ps) (ha : answeredWithNackAt j (p :: ps) (i :: is) = true)
    (hj : j ≤ r.count .ackchk) :
    i.rst = false ∧ i.pDone = true ∧ ∃ rs k, r = p :: rs ∧
      nackedAt k (if p = .ackchk ∧ i.pAck = false then [.stop] else rs) = ps ∧
      k ≤ (if p = .ackchk ∧ i.pAck = false then [.stop] else rs).count .ackchk ∧
      answeredWithNackAt k ps is = true ∧ (j != 0) = (p == .ackchk && !i.pAck || k != 0) := by
  cases r with
  | nil => cases hl
  | cons q rs =>
    simp only [answeredWithNackAt, Bool.and_eq_true] at ha
    obtain ⟨⟨hr, hd⟩, ha⟩ := ha
    refine ⟨by simpa using hr, hd, rs, ?_⟩
    by_cases hq : q = .ackchk
    · subst hq
      by_cases h1 : j = 1 -- this check is the NACK
      · rw [nackedAt, if_pos rfl, if_pos h1] at hl
        cases hl
        obtain ⟨hk, ha⟩ : i.pAck = false ∧ answeredWithNackAt 0 [.stop] is = true := by simpa [h1] using ha
        exact ⟨0, rfl, by simp [hk, nackedAt_zero], Nat.zero_le _, ha, by simp [hk, h1]⟩
      · rw [nackedAt, if_pos rfl, if_neg h1] at hl
        cases hl
        have hj1 : (j != 1) = true := by simpa using h1
        obtain ⟨hk, ha⟩ : i.pAck = true ∧ answeredWithNackAt (j - 1) (nackedAt (j - 1) rs) is = true := by
          simpa [hj1] using ha
        rw [List.count_cons_self] at hj
        have hn : (j != 0) = (j - 1 != 0) := by
          rw [Bool.eq_iff_iff, bne_iff_ne, bne_iff_ne]
          omega
        exact ⟨j - 1, rfl, by simp [hk], by simp [hk]; omega, ha, by simp [hk, hn]⟩
    · rw [nackedAt, if_neg hq] at hl
      cases hl
      rw [if_neg hq] at ha
      rw [List.count_cons_of_ne hq] at hj
      exact ⟨j, rfl, by simp [hq], by simp [hq]; exact hj, ha, by simp [hq]⟩

/-! ### What a sequence reads into `rd` -/

/-- What is in the register of byte `k` after the primitives `l`, completed at the inputs `is`, if it held `r` before
them: the byte of the RX from which `readFrom k` is left, decoded (R143, R149). -/
def lastReceived (k : Nat) (dec : Byte → Decoded) : List Instr → List Inputs → Decoded → Decoded
  | p :: ps, i :: is, r => lastReceived k dec ps is (if p :: ps = readFrom k then dec i.pRdata else r)
  | [], _, r => r
  | _ :: _, [], r => r

theorem readFrom_eq_rx_cons {k : Nat} (h : k < 3) : ∃ ps, readFrom k = .rx :: ps := by
  interval_cases k <;> exact ⟨_, rfl⟩

/-- Without an RX nothing is received. -/
theorem lastReceived_of_no_rx {k : Nat} {dec : Byte → Decoded} (hk : k < 3) :
    ∀ {l : List Instr} {is : List Inputs} {r : Decoded}, .rx ∉ l → lastReceived k dec l is r = r
  | [], _, _, _ => rfl
  | _ :: _, [], _, _ => rfl
  | p :: ps, i :: is, r, h => by
    obtain ⟨hp, hps⟩ : ¬.rx = p ∧ .rx ∉ ps := by simpa using h
    have hne : p :: ps ≠ readFrom k := by
      obtain ⟨qs, hq⟩ := readFrom_eq_rx_cons hk
      rw [hq]
      exact fun he => hp (List.cons.inj he).1.symm
    rw [lastReceived, if_neg hne, lastReceived_of_no_rx hk hps]

/-- Once less than `readFrom k` is left, byte `k` stays. -/
theorem lastReceived_of_shorter {k : Nat} {dec : Byte → Decoded} :
    ∀ {l : List Instr} {is : List Inputs} {r : Decoded}, l.length < (readFrom k).length → lastReceived k dec l is r = r
  | [], _, _, _ => rfl
  | _ :: _, [], _, _ => rfl
  | p :: ps, i :: is, r, h => by
    have hne : p :: ps ≠ readFrom k := fun he => h.ne (congrArg List.length he)
    rw [lastReceived, if_neg hne, lastReceived_of_shorter (Nat.lt_of_succ_lt h)]

/-- Byte `k` is received at the edge from which `readFrom k` is left. -/
theorem lastReceived_readFrom {k : Nat} {dec : Byte → Decoded} {a : Inputs} (hk : k < 3) :
    ∀ {l : List Instr} {is : List Inputs} {r : Decoded}, is[l.length]? = some a →
      lastReceived k dec (l ++ readFrom k) is r = dec a.pRdata
  | [], [], _, h => by cases h
  | _ :: _, [], _, h => by cases h
  | [], i :: is, r, h => by
    cases h
    obtain ⟨qs, hq⟩ := readFrom_eq_rx_cons hk
    rw [List.nil_append, hq, lastReceived, if_pos hq.symm, lastReceived_of_shorter (by simp [hq])]
  | p :: ps, i :: is, r, h => by
    have hne : p :: (ps ++ readFrom k) ≠ readFrom k := by
      intro he
      have hlen := congrArg List.length he
      simp only [List.length_cons, List.length_append] at hlen
      omega
    rw [List.cons_append, lastReceived, if_neg hne]
    exact lastReceived_readFrom hk (by simpa using h)

/-- Nothing is checked while bytes are received (R149). -/
theorem nackedAt_eq_readFrom_iff {j k : Nat} {l : List Instr} (hk : k < 3) :
    nackedAt j l = readFrom k ↔ l = readFrom k := by
  have hc : .ackchk ∉ readFrom k := by interval_cases k <;> decide
  constructor
  · intro h
    rw [← nackedAt_of_no_check (j := j) (l := l) fun hm => hc (h ▸ check_mem_nackedAt hm), h]
  · rintro rfl
    exact nackedAt_of_no_check hc

/-! ### A transaction whose primitives complete at once -/

/-- What is left begins with the request (R171). -/
theorem State.remaining_of_request {p : Instr} (h : s.OnCourse) (hq : s.request = some p) :
    ∃ ps, s.remaining = p :: ps := by
  rcases State.request_cases hq with ⟨hs, rfl⟩ | ⟨hs, rfl⟩ | ⟨hs, rfl⟩ | ⟨hs, rfl⟩ | ⟨hs, rfl⟩ | ⟨hs, rfl⟩ |
    ⟨hs, rfl⟩ | ⟨hs, rfl⟩
  · exact ⟨_, State.remaining_start h hs⟩
  · exact ⟨_, State.remaining_rstart hs⟩
  · exact ⟨_, State.remaining_sends h hs⟩
  · exact ⟨_, State.remaining_acknowledged h hs⟩
  · exact ⟨_, State.remaining_din h.idx hs⟩
  · exact ⟨_, State.remaining_mack h hs⟩
  · exact ⟨_, State.remaining_mnack hs⟩
  · exact ⟨_, State.remaining_stop hs⟩

/-- On course, nothing is left in IDLE alone. -/
theorem State.idle_of_remaining_nil (h : s.OnCourse) (hn : s.remaining = []) : s.st = .idle := by
  cases hq : s.request with
  | some p =>
    obtain ⟨ps, hl⟩ := State.remaining_of_request h hq
    simp [hl] at hn
  | none =>
    have hc := h.context
    cases hs : s.st <;> simp [State.request, State.contextOk, hs] at hq hc ⊢

theorem toNat_lt_three {x : BitVec 2} (hx : x ≠ 3) : x.toNat < 3 := by
  revert x; decide

theorem readFrom_inj {x y : BitVec 2} (hx : x ≠ 3) (hy : y ≠ 3) (h : readFrom x.toNat = readFrom y.toNat) : x = y := by
  revert x y; decide

/-- On course, `readFrom k` is left in DIN with `idx = k` alone. -/
theorem State.remaining_eq_readFrom_iff {k : BitVec 2} (h : s.OnCourse) (hk : k ≠ 3) :
    s.remaining = readFrom k.toNat ↔ s.st = .din ∧ s.idx = k := by
  have hd (hs : s.st = .din) : s.remaining = readFrom s.idx.toNat := by simp only [State.remaining, hs]
  refine ⟨fun hl => ?_, fun ⟨hs, hx⟩ => hx ▸ hd hs⟩
  obtain ⟨qs, hr⟩ := readFrom_eq_rx_cons (toNat_lt_three hk)
  have hs : s.st = .din := by
    cases hq : s.request with
    | none =>
      rw [State.remaining_of_not_requests (by rw [← s.request_isSome, hq]; rfl), hr] at hl
      cases hl
    | some p =>
      obtain ⟨ps, hp⟩ := State.remaining_of_request h hq
      obtain rfl : p = .rx := by
        rw [hp, hr] at hl
        exact (List.cons.inj hl).1
      simpa using State.request_cases hq
  exact ⟨hs, readFrom_inj h.idx hk ((hd hs).symm.trans hl)⟩

/-- The command has completed: `done` is set, the code is the one `fail` chooses, and the bus is free (R146). -/
def State.Concluded (s : State) : Prop := s.done = true ∧ s.status = completionStatus s.fail ∧ s.env.bus = .free

theorem State.checkAck_st_ne_idle : s.checkAck.st ≠ .idle := by
  rcases s.checkAck_cases with ⟨-, he⟩ | ⟨-, he⟩ <;> rw [he]
  · simp
  · rcases s.acknowledged_cases with ⟨-, -, ha⟩ | ⟨-, -, ha⟩ | ⟨-, -, ha⟩ | ⟨-, -, ha⟩ | ⟨-, -, ha⟩ | ⟨-, -, ha⟩ |
      ⟨-, ha⟩ <;> rw [ha] <;> simp

theorem State.advances_iff : s.advances = true ↔
    s.env.pins.rst = false ∧ s.st.requests = true ∧ s.env.pins.pDone = true ∧ s.idx ≠ 3 := by
  simp [State.advances, State.completesPrimitive, and_assoc]

/-- The transition that leads to IDLE is STOP's, and concludes the command (R146). -/
theorem Edge.concluded (h : Edge s t) (hv : s.advances = true) (hi : t.st = .idle) : t.Concluded := by
  obtain ⟨hr, hq, hd, hx⟩ := State.advances_iff.1 hv
  cases h with
  | reset h => simp [h] at hr
  | hold _ hw =>
    rcases hw with ⟨hs, -⟩ | ⟨-, hn, -⟩
    · simp [hs, SeqState.requests] at hq
    · simp [hn] at hd
  | recover _ _ hw => simp [hq, hd] at hw
  | recoverCompleted _ _ _ _ h3 => exact absurd h3 hx
  | init _ _ hs | write _ _ _ _ hs | read _ _ hs | reservedCmd _ _ hs => simp [hs, SeqState.requests] at hq
  | start | rstart | tx | mack | mnack => cases hi
  | ackchk => exact absurd hi State.checkAck_st_ne_idle
  | rx => simp only [State.tick_st] at hi; split at hi <;> cases hi
  | stop => exact ⟨rfl, rfl, rfl⟩

/-- The transition of an edge that advances (R136 to R146). -/
theorem Edge.transition (h : Edge s t) (hv : s.advances = true) : s.Transition t := by
  cases h.kind (State.advances_iff.1 hv).1 with
  | keeps _ hn | accepts _ _ _ hn => rw [hv] at hn; cases hn
  | advances _ _ hk => exact hk

/-- The block plays its transaction on its own, its primitives complete at once, and the `j`-th check ahead is the one
that is a NACK, or none where `j = 0` (R151, R251). -/
structure State.Follows (j : Nat) (s : State) : Prop where
  course : s.OnCourse
  attached : s.env.attached = false
  checks : j ≤ s.remaining.count .ackchk
  answers : answeredWithNackAt j (nackedAt j s.remaining) (s.env.pins :: s.env.upcoming) = true
  concluded : s.st = .idle → s.Concluded

/-- Whatever has still to be answered is answered by the inputs listed after this edge. -/
theorem Edge.inputs_next {j : Nat} {ps : List Instr} (h : Edge s t) (ha : s.env.attached = false)
    (hp : answeredWithNackAt j ps s.env.upcoming = true) (hn : ps ≠ []) :
    s.env.upcoming = t.env.pins :: t.env.upcoming := by
  obtain ⟨hpins, hu, -⟩ := h.env_of_not_attached ha
  cases hl : s.env.upcoming with
  | nil =>
    obtain ⟨p, qs, rfl⟩ := List.exists_cons_of_ne_nil hn
    simp [hl, answeredWithNackAt] at hp
  | cons i is => simp [hpins, hu, hl, Env.supplied]

/-- The run of a transaction: it completes the primitives `l`, its trace is their words, and `rd[0..2]` hold the bytes
received last. -/
structure State.Issues (l : List Instr) (s t : State) : Prop where
  run : Host.Core.run core l.length s = .next t
  trace : (primTrace l.length s).map TraceEntry.word = l.map encode
  rd0 : t.rd0 = lastReceived 0 decSec l (s.env.pins :: s.env.upcoming) s.rd0
  rd1 : t.rd1 = lastReceived 1 decMin l (s.env.pins :: s.env.upcoming) s.rd1
  rd2 : t.rd2 = lastReceived 2 decHour l (s.env.pins :: s.env.upcoming) s.rd2

section
variable {j k : Nat} {p : Instr} {ps : List Instr} {u : State}

/-- What follows the first primitive is received at the inputs listed after this edge. -/
theorem lastReceived_next {n : Nat} {dec : Byte → Decoded} {r : Decoded} (h : Edge s t) (ha : s.env.attached = false)
    (hi : answeredWithNackAt k ps s.env.upcoming = true) :
    lastReceived n dec ps (t.env.pins :: t.env.upcoming) r = lastReceived n dec ps s.env.upcoming r := by
  by_cases hn : ps = []
  · rw [hn]; rfl
  · rw [h.inputs_next ha hi hn]

/-- The run goes on from the completed first primitive. -/
theorem State.Issues.cons (ho : s.OnCourse) (ha : s.env.attached = false) (hv : s.advances = true)
    (hq : s.request = some p) (hl : nackedAt j s.remaining = p :: ps)
    (hi : answeredWithNackAt k ps s.env.upcoming = true) (ht : step s = .next t) (hu : t.Issues ps u) :
    s.Issues (p :: ps) u := by
  obtain ⟨-, hqs, hd, -⟩ := State.advances_iff.1 hv
  have hp : s.completesPrimitive = true := State.completesPrimitive_iff.2 ⟨hqs, hd⟩
  have he := step_edge ht
  have hk := he.transition hv
  have hrx (x : BitVec 2) (hx : x ≠ 3) : p :: ps = readFrom x.toNat ↔ s.st = .din ∧ s.idx = x := by
    rw [← hl, nackedAt_eq_readFrom_iff (toNat_lt_three hx), State.remaining_eq_readFrom_iff ho hx]
  have hrd (x : BitVec 2) (hx : x ≠ 3) (dec : Byte → Decoded) (r : Decoded) :
      lastReceived x.toNat dec ps (t.env.pins :: t.env.upcoming)
          (if s.st = .din ∧ s.idx = x then dec s.env.pins.pRdata else r) =
        lastReceived x.toNat dec (p :: ps) (s.env.pins :: s.env.upcoming) r := by
    rw [lastReceived_next he ha hi, lastReceived, if_congr (hrx x hx) rfl rfl]
  refine ⟨(run_succ ht _).trans hu.run, ?_, ?_, ?_, ?_⟩
  · rw [List.length_cons, primTrace_succ ht, List.map_append, State.traceEntry_word hq hp, hu.trace]
    rfl
  · rw [hu.rd0, hk.rd0]
    exact hrd 0 (by decide) decSec s.rd0
  · rw [hu.rd1, hk.rd1]
    exact hrd 1 (by decide) decMin s.rd1
  · rw [hu.rd2, hk.rd2]
    exact hrd 2 (by decide) decHour s.rd2

/-- ACKW alone requests ACKCHK (R171). -/
theorem State.request_ackchk (hq : s.request = some p) : (s.st == .ackw) = (p == .ackchk) := by
  rcases State.request_cases hq with ⟨hs, rfl⟩ | ⟨hs, rfl⟩ | ⟨hs, rfl⟩ | ⟨hs, rfl⟩ | ⟨hs, rfl⟩ | ⟨hs, rfl⟩ |
    ⟨hs, rfl⟩ | ⟨hs, rfl⟩
  case inr.inr.inl => rcases SeqState.sends_cases hs with hs | hs | hs <;> rw [hs] <;> rfl
  all_goals rw [hs]; rfl

/-- The edge completes the first primitive, and the block follows what is left. -/
theorem State.Follows.step (h : s.Follows j) (hl : nackedAt j s.remaining = p :: ps) :
    ∃ (t : State) (k : Nat), t.Follows k ∧ nackedAt k t.remaining = ps ∧ (t.fail || k != 0) = (s.fail || j != 0) ∧
      ∀ u, t.Issues ps u → s.Issues (p :: ps) u := by
  obtain ⟨hr, hd, rs, k, hrem, hps, hk, ha, hf⟩ := answered_head hl (hl ▸ h.answers) h.checks
  have hqs : s.st.requests = true := by
    by_contra hn
    rw [State.remaining_of_not_requests (by simpa using hn)] at hrem
    cases hrem
  obtain ⟨t, ht⟩ := step_total s
  have he := step_edge ht
  obtain ⟨q, qs, hq, hrem', ht'⟩ := he.plays h.course hr (State.completesPrimitive_iff.2 ⟨hqs, hd⟩)
  obtain ⟨rfl, rfl⟩ := List.cons.inj (hrem.symm.trans hrem')
  rw [← ht'] at hps hk
  have hv := State.advances_eq_true hr hd hqs h.course.idx
  have hans : answeredWithNackAt k ps (t.env.pins :: t.env.upcoming) = true := by
    by_cases hn : ps = []
    · rw [hn]; rfl
    · rwa [← he.inputs_next h.attached ha hn]
  refine ⟨t, k, ⟨he.onCourse h.course, (he.env_of_not_attached h.attached).2.2, hk, hps ▸ hans, he.concluded hv⟩,
    hps, ?_, fun u hu => hu.cons h.course h.attached hv hq hl ha ht⟩
  rw [(he.transition hv).fail, State.request_ackchk hq, hf, Bool.or_assoc]

/-- A transaction whose primitives complete at once issues its sequence and concludes. -/
theorem State.Follows.issues {l : List Instr} : ∀ {j : Nat} {s : State}, s.Follows j → nackedAt j s.remaining = l →
    ∃ t, s.Issues l t ∧ t.st = .idle ∧ t.Concluded ∧ t.fail = (s.fail || j != 0) := by
  induction l with
  | nil =>
    intro j s h hl
    have hn : s.remaining = [] := by
      by_contra hn
      exact nackedAt_ne_nil hn hl
    have hs := State.idle_of_remaining_nil h.course hn
    have hj : j = 0 := by simpa [hn] using h.checks
    exact ⟨s, ⟨rfl, rfl, rfl, rfl, rfl⟩, hs, h.concluded hs, by simp [hj]⟩
  | cons p ps ih =>
    intro j s h hl
    obtain ⟨t, k, ht, hps, hf, hi⟩ := h.step hl
    obtain ⟨u, hu, hs, hc, hfu⟩ := ih ht hps
    exact ⟨u, hi u hu, hs, hc, hfu.trans hf⟩

end

/-! ### INIT, WRITE and READ -/

/-- The sequence of an accepted command, answered, is issued from the state that acceptance leads to. -/
theorem Edge.follows {i : Instr} {j : Nat} (h : Edge s t) (ha : s.accepts i = true) (hn : fullSequence i ≠ [])
    (hj : j ≤ checkCount i) (hat : s.env.attached = false)
    (hi : answeredWithNackAt j (nackedAt j (fullSequence i)) s.env.upcoming = true) : t.Follows j := by
  have hb := h.begins ha
  obtain ⟨hs, ho, -⟩ := hb.started hn
  refine ⟨ho, (h.env_of_not_attached hat).2.2, by rw [hb.remaining]; exact hj, ?_, fun hidle => ?_⟩
  · rwa [hb.remaining, ← h.inputs_next hat hi (nackedAt_ne_nil hn)]
  · rw [hs] at hidle
    cases hidle

/-- Only a READ without a NACK receives (R147 to R151). -/
theorem rx_notMem_nackedAt {i : Instr} {j : Nat} (hj : j ≤ checkCount i) (h : (∀ u, i ≠ .read u) ∨ j ≠ 0) :
    .rx ∉ nackedAt j (fullSequence i) := by
  by_cases hi : ∃ u, i = .read u
  · obtain ⟨u, rfl⟩ := hi
    have hc : checkCount (.read u) = 3 := rfl
    have h0 : j ≠ 0 := h.resolve_left fun hn => hn u rfl
    have h123 : j = 1 ∨ j = 2 ∨ j = 3 := by omega
    rcases h123 with rfl | rfl | rfl <;> simp [fullSequence, sendChecked, nackedAt]
  · have hn : .rx ∉ fullSequence i := by
      cases i <;> simp [fullSequence, sendChecked] at hi ⊢
    intro hm
    rcases mem_nackedAt hm with hm | hm
    · exact hn hm
    · cases hm

/-- READ's three bytes are received by its ninth, eleventh and thirteenth primitives (R149). -/
theorem lastReceived_read {k : Nat} {dec : Byte → Decoded} {u : BitVec 17} {is : List Inputs} {r : Decoded} {a : Inputs}
    (hk : k < 3) (ha : is[8 + 2 * k]? = some a) : lastReceived k dec (fullSequence (.read u)) is r = dec a.pRdata := by
  have hl : fullSequence (.read u) = (fullSequence (.read u)).take (8 + 2 * k) ++ readFrom k := by
    interval_cases k <;> rfl
  have hlen : ((fullSequence (.read u)).take (8 + 2 * k)).length = 8 + 2 * k := by
    interval_cases k <;> rfl
  rw [hl]
  exact lastReceived_readFrom hk (by rw [hlen]; exact ha)

/-- Settles O56: acceptance leads to a state that follows the command's sequence, which is then issued; only READ reads
bytes from it. -/
theorem commandsIssueTheirSequencesAndComplete : Obligations.CommandsIssueTheirSequencesAndComplete := by
  intro s i j ha hn hj hat hi
  obtain ⟨u, hu⟩ := step_total s
  have he := step_edge hu
  have hb := he.begins ha
  obtain ⟨-, -, hf⟩ := hb.started hn
  obtain ⟨t, ht, hs, ⟨hd, hst, hbus⟩, hft⟩ := (he.follows ha hn hj hat hi).issues rfl
  rw [hb.remaining] at ht
  obtain ⟨hrun, htrace, h0, h1, h2⟩ := ht
  rw [← he.inputs_next hat hi (nackedAt_ne_nil hn)] at h0 h1 h2
  rw [hb.rd0] at h0
  rw [hb.rd1] at h1
  rw [hb.rd2] at h2
  have hidle : s.completesPrimitive = false := by
    obtain ⟨-, hs, -⟩ := State.takesCommand_iff.1 (State.accepts_iff.1 ha).1
    simp [State.completesPrimitive, hs, SeqState.requests]
  refine ⟨t, (run_succ hu _).trans hrun, hs, hd, ?_, hbus, ?_, fun h => ?_, fun v a b c hv hj0 hxa hxb hxc => ?_⟩
  · rw [hst, hft, hf]
    by_cases h0 : j = 0 <;> simp [completionStatus, h0]
  · rw [primTrace_succ hu, State.traceEntry_of_not_completes hidle, List.nil_append, htrace]
  · have hrx := rx_notMem_nackedAt hj h
    rw [h0, h1, h2]
    exact ⟨lastReceived_of_no_rx (by decide) hrx, lastReceived_of_no_rx (by decide) hrx,
      lastReceived_of_no_rx (by decide) hrx⟩
  · subst hv hj0
    rw [h0, h1, h2, nackedAt_zero]
    exact ⟨lastReceived_read (by decide) hxa, lastReceived_read (by decide) hxb, lastReceived_read (by decide) hxc⟩

end Sys2Proof.Machine
end

section
/-! PROOFS. The bus primitives (spec/42_bus_primitives.md R170, R171, R182): what each state requests, a primitive the
block does not request, and the completion wherever a request meets `p_done`. -/

namespace Sys2Proof.Machine

variable {s t : State}

/-! ### The primitive each state requests -/

/-- `p_req` and `p_op` are a matter of `st` alone (R32, R171). -/
theorem State.outputs_request {q : SeqState} (hs : s.st = q) :
    s.outputs.pReq = q.requests ∧ s.outputs.pOp = q.pOp := by
  subst hs
  exact ⟨rfl, rfl⟩

/-- IDLE and the unused encodings are the codes outside 1 to 10 (R22, R39). -/
theorem SeqState.not_requests_of_code {q : SeqState} (h : q.code = 0 ∨ 11 ≤ q.code.toNat) : q.requests = false := by
  revert h
  cases q <;> decide

/-- Settles O44: the table of R171, state by state. -/
theorem eachStateRequestsItsPrimitive : Obligations.EachStateRequestsItsPrimitive := by
  refine fun s => ⟨State.outputs_request, State.outputs_request, ?_, State.outputs_request, State.outputs_request,
    State.outputs_request, State.outputs_request, State.outputs_request, fun hc => ?_⟩
  · rintro (hs | hs | hs) <;> exact State.outputs_request hs
  · have hq := SeqState.not_requests_of_code hc
    exact ⟨hq, SeqState.pOp_of_not_requests hq⟩

/-! ### A primitive the block does not request -/

/-- Where nothing is requested the edge does what it does without a completion (R142). -/
theorem completing_without_request {i : Instr} {w : SeqState → Bool} {f : State → State} (hw : w s.st = false)
    (hr : s.st.requests = false) :
    completing i w f s = .next (if s.st = .idle then s.holdEdge else s.recoverEdge) := by
  simp only [completing, hw, hr, Bool.false_eq_true, if_false]
  split <;> rfl

/-- The meaning of a primitive is its completion in the states that request it, a TX of any byte in those that send
(R170, R171). -/
theorem exec_primitive {i : Instr}
    (hi : i ∈ [Instr.start, .rstart, .ackchk, .rx, .mack, .mnack, .stop] ∨ ∃ d, i = .tx d) :
    ∃ w f, (∀ s, exec i s = completing i w f s) ∧
      ∀ s : State, w s.st = true → s.request = some i ∨ ∃ d d', s.request = some (.tx d) ∧ i = .tx d' := by
  have hq {q : SeqState} {i : Instr} (hi : ∀ s : State, State.request { s with st := q } = some i) (s : State)
      (hs : (s.st == q) = true) : s.request = some i ∨ ∃ d d', s.request = some (.tx d) ∧ i = .tx d' :=
    .inl (by rw [← hi s, ← eq_of_beq hs])
  simp only [List.mem_cons, List.not_mem_nil, or_false] at hi
  rcases hi with (rfl | rfl | rfl | rfl | rfl | rfl | rfl) | ⟨d, rfl⟩
  · exact ⟨_, _, exec_start, hq fun _ => rfl⟩
  · exact ⟨_, _, exec_rstart, hq fun _ => rfl⟩
  · exact ⟨_, _, exec_ackchk, hq fun _ => rfl⟩
  · exact ⟨_, _, exec_rx, hq fun _ => rfl⟩
  · exact ⟨_, _, exec_mack, hq fun _ => rfl⟩
  · exact ⟨_, _, exec_mnack, hq fun _ => rfl⟩
  · exact ⟨_, _, exec_stop, hq fun _ => rfl⟩
  · exact ⟨_, _, exec_tx d, fun s hs => .inr ⟨_, _, State.request_of_sends hs, rfl⟩⟩

/-- Settles O26: no state that requests another primitive, or none, is one the primitive completes in. -/
theorem unrequestedPrimitiveStopsOrHasNoEffect : Obligations.UnrequestedPrimitiveStopsOrHasNoEffect := by
  intro i s hi
  obtain ⟨w, f, he, hw⟩ := exec_primitive hi
  have hnone (hq : s.request = none) :
      exec i s = .next (if s.st = .idle then s.holdEdge else s.recoverEdge) := by
    refine (he s).trans (completing_without_request (Bool.eq_false_iff.2 fun hs => ?_) ?_)
    · rcases hw s hs with h | ⟨_, _, h, -⟩ <;> rw [hq] at h <;> cases h
    · rw [← s.request_isSome, hq]; rfl
  refine ⟨fun r hr hne htx => ?_, fun hs => ?_, fun hs hq => ?_⟩
  · refine (he s).trans (completing_unrequested (Bool.eq_false_iff.2 fun hs => ?_) (State.requests_of_request hr))
    rcases hw s hs with h | ⟨d, d', h, hd⟩ <;> obtain rfl := Option.some.inj (hr.symm.trans h)
    · exact hne rfl
    · exact htx d d' ⟨rfl, hd⟩
  · rw [hnone (by simp [State.request, hs]), if_pos hs]; rfl
  · rw [hnone hq, if_neg hs]; rfl

/-! ### Where a request meets `p_done` -/

section
variable {i : Instr} (hq : s.request = some i) (hd : s.env.pins.pDone = true)
include hq hd

theorem State.completesPrimitive_of_request : s.completesPrimitive = true :=
  State.completesPrimitive_iff.2 ⟨State.requests_of_request hq, hd⟩

/-- Without reset the bus and T hear the request, and then time passes (R170). -/
theorem step_request_env (hr : s.env.pins.rst = false) (h : step s = .next t) :
    t.env = (s.env.hear i).tick t.st := by
  rw [step_request hq hr hd] at h
  obtain ⟨b, hb, hk⟩ := Result.andThen_eq_next.1 h
  cases hk
  exact congrArg (Env.tick b.st) (exec_request_env (s := s.showCodec s.env.codecRequest) hq hb)

/-- At a reset edge T hears the completed request too (R170). -/
theorem State.resetEnv_target_of_request : s.resetEnv.target = (s.env.hear i).target := by
  simp [State.resetEnv, State.hearRequest, hq, hd]

/-- The entry of the request: its word, and the response where the transition of ACKW or of DIN reads it (R142, R152). -/
theorem State.traceEntry_of_request :
    ∃ e : TraceEntry, s.traceEntry = [e] ∧ e.word = encode i ∧
      e.ack = (if s.st = .ackw ∧ s.env.pins.rst = false ∧ s.idx ≠ 3 then some s.env.pins.pAck else none) ∧
      e.rdata = (if s.st = .din ∧ s.env.pins.rst = false ∧ s.idx ≠ 3 then some s.env.pins.pRdata else none) := by
  have hadv (q : SeqState) : s.advancesFrom q = true ↔ s.st = q ∧ s.env.pins.rst = false ∧ s.idx ≠ 3 := by
    rw [State.advancesFrom_iff]
    simp only [State.requests_of_request hq, hd, true_and]
    tauto
  refine ⟨_, if_pos (State.completesPrimitive_of_request hq hd), (State.encode_request hq).symm, ?_, ?_⟩ <;>
    simp only [hadv]

end

/-- Settles O59: without reset the step runs the request, whatever `idx` is; a reset edge lets T hear it and leads to
IDLE. -/
theorem primitiveCompletesWhereRequestMeetsDone : Obligations.PrimitiveCompletesWhereRequestMeetsDone := by
  intro s t i hq hd h
  refine ⟨State.completesPrimitive_of_request hq hd, ?_, fun hr => ?_, fun hr => ?_, State.traceEntry_of_request hq hd⟩
  · cases hr : s.env.pins.rst with
    | true =>
      rw [step_of_rst h hr]
      exact State.resetEnv_target_of_request (s := s.showCodec s.env.codecRequest) hq hd
    | false => rw [step_request_env hq hd hr h, Env.tick_target]
  · rw [step_request_env hq hd hr h, Env.tick_bus]
  · rw [step_of_rst h hr]
    rfl

end Sys2Proof.Machine
end

section
/-! PROOFS. Reset (spec/70_reset_and_hazards.md R230): the registers and the request after an edge with `rst = 1`. -/

namespace Sys2Proof.Machine

/-- The state after a reset edge is the reset state but for the record of the codec port and the environment, which are no
registers of R41. -/
theorem step_reset_registers {s : State} (hr : s.env.pins.rst = true) :
    ∃ c e, step s = .next { State.reset with cxSampled := c, env := e } :=
  ⟨_, _, step_reset hr⟩

/-- Settles O32: the registers are those of the reset state, and `cmd_ready` and `p_req` are functions of `st` alone. -/
theorem resetEdgeResetsEveryRegister : Obligations.ResetEdgeResetsEveryRegister := by
  intro s hr
  obtain ⟨c, e, h⟩ := step_reset_registers hr
  exact ⟨_, h, rfl, rfl, rfl, rfl, rfl, rfl, rfl, rfl, rfl, rfl, rfl, rfl, rfl, rfl, rfl, rfl⟩

end Sys2Proof.Machine
end

section
/-! PROOFS. Words of the spec's tables (spec/95_test_vectors.md 2.3, 2.4, 2.9): each is the encoding of its instruction, and
so decodes to it. -/

namespace Sys2Proof

/-- Whatever encodes to a word is what that word decodes to. -/
theorem decode_of_encode_eq {i : Instr} {p : PortWord} (h : encode i = p) : decode p = .ok i :=
  h ▸ decodeOfEncodeIsTheInstruction i

/-- Settles O3: the encoder gives each of the ten words. -/
theorem specWordsDecodeToTheirInstructions : Obligations.SpecWordsDecodeToTheirInstructions :=
  ⟨decode_of_encode_eq rfl, decode_of_encode_eq rfl, decode_of_encode_eq rfl, decode_of_encode_eq rfl,
    decode_of_encode_eq rfl, decode_of_encode_eq rfl, decode_of_encode_eq rfl, decode_of_encode_eq rfl,
    decode_of_encode_eq rfl, decode_of_encode_eq rfl⟩

end Sys2Proof
end
